-- ==== Sys2Proof/Word.lean ====
section
/-! DEFINITION. The words and the closed sets of names the block's ports and registers carry (spec/00_scope.md R2, R6;
spec/10_state.md R26, R27, R32; spec/40_pitch_table.md R130). -/

namespace Sys2Proof

/-- An 8-bit event word of the command port (30_encoding.md R100). -/
abbrev EventWord := BitVec 8

/-- A StepMask: bit `i` (0..7) says that scale degree `i` is held, bit 0 least significant (00_scope.md R6). -/
abbrev Mask := BitVec 8

/-- A scale degree, or a scan index, 0..7. -/
abbrev Degree := Fin 8

/-- The two channels: `one` is channel 1 (`c = 0`), `two` is channel 2 (`c = 1`) (00_scope.md R2). -/
inductive Channel where
  | one
  | two
  deriving DecidableEq, Repr

/-- The channel that is not this one. -/
def Channel.other : Channel → Channel
  | .one => .two
  | .two => .one

/-- directionMode (10_state.md R26). -/
inductive DirMode where
  | up
  | down
  | upDown
  | downUp
  deriving DecidableEq, Repr

/-- The attribute under edit (10_state.md R27); the code 3 has no name here, so it cannot be held. -/
inductive Attr where
  | stepCount
  | rate
  | octave
  deriving DecidableEq, Repr

/-- The seven scale modes (10_state.md R28, 40_pitch_table.md R131); the index 7 has no name here. -/
inductive ScaleMode where
  | ionian
  | dorian
  | phrygian
  | lydian
  | mixolydian
  | aeolian
  | locrian
  deriving DecidableEq, Repr

/-- A scanning direction: ascending (0) or descending (1) (10_state.md R32). -/
inductive Direction where
  | asc
  | desc
  deriving DecidableEq, Repr

/-- A pitch class, one of the seven letters (40_pitch_table.md R130). -/
inductive PitchClass where
  | A
  | B
  | C
  | D
  | E
  | F
  | G
  deriving DecidableEq, Repr

/-- An accidental: there is no sharp (40_pitch_table.md R130). -/
inductive Accidental where
  | natural
  | flat
  deriving DecidableEq, Repr

/-- An octave of the pitch table, 0..8 (00_scope.md R5 `OCT_MAX`). -/
abbrev Octave := Fin 9

end Sys2Proof
end

