-- ==== Sys2Proof/Syntax.lean ====
section
/-! DEFINITION. The eleven events, one constructor per row of spec/opcode_table.json (spec/00_scope.md R4,
spec/30_encoding.md R103 to R111). Reset is no event word: it is the pin `rst` (Machine/Cycle.lean). -/

namespace Sys2Proof

/-- The events an event word can name. Operands are the fields of the row. -/
inductive Instr where
  /-- `NOP` (42_control.md R200). -/
  | nop
  /-- `STEP c, d, h`: degree `d` of channel `c` becomes held (`h`) or released (42_control.md R201). -/
  | step (c : Channel) (d : Degree) (h : Bool)
  /-- `ATTRCYC c` (42_control.md R202). -/
  | attrcyc (c : Channel)
  /-- `ATTRDEC c` (42_control.md R204). -/
  | attrdec (c : Channel)
  /-- `ATTRINC c` (42_control.md R203). -/
  | attrinc (c : Channel)
  /-- `DIR c, m` (42_control.md R205). -/
  | dir (c : Channel) (m : DirMode)
  /-- `SCALE c, k`: `k` is the 3-bit field; 7 is ill formed (42_control.md R206, 30_encoding.md R112). -/
  | scale (c : Channel) (k : BitVec 3)
  /-- `SEQREC k`, slot `k` in 0..3 (44_sequence.md R240). -/
  | seqrec (k : Fin 4)
  /-- `SEQPLAY` (44_sequence.md R241). -/
  | seqplay
  /-- `SEQSTOP` (44_sequence.md R242). -/
  | seqstop
  /-- `TICK c` (43_tick.md R220). -/
  | tick (c : Channel)
  deriving DecidableEq, Repr

/-- The channel whose state an event reads and writes; `NOP` has none, the sequence events are channel 2's
(20_memory.md R82). -/
def Instr.channel : Instr → Option Channel
  | .nop => none
  | .step c _ _ => some c
  | .attrcyc c => some c
  | .attrdec c => some c
  | .attrinc c => some c
  | .dir c _ => some c
  | .scale c _ => some c
  | .seqrec _ => some .two
  | .seqplay => some .two
  | .seqstop => some .two
  | .tick c => some c

end Sys2Proof
end

