-- ==== Sys2Proof/WellFormed.lean ====
section
/-! DEFINITION. Which instructions have an event word (spec/30_encoding.md R103). The types of the operands leave one
check: the row constraint `k != 7` of `SCALE`. -/

namespace Sys2Proof

/-- The row constraint of 30_encoding.md R103 and R108: `SCALE` takes an index in 0..6. -/
def Instr.wellFormed : Instr → Bool
  | .nop => true
  | .step _ _ _ => true
  | .attrcyc _ => true
  | .attrdec _ => true
  | .attrinc _ => true
  | .dir _ _ => true
  | .scale _ k => k != 7#3
  | .seqrec _ => true
  | .seqplay => true
  | .seqstop => true
  | .tick _ => true

end Sys2Proof
end

