-- ==== Sys2Proof/Decode.lean ====
section
/-! DEFINITION. The decoder, total on all 256 event words and rejecting the 187 reserved ones by name, and the encoder
(spec/30_encoding.md R100 to R113). -/

namespace Sys2Proof

/-- The classes of reserved event words, one per line of the list of 30_encoding.md R112. -/
inductive Reserved where
  /-- op 0 with `c` or `arg` non-zero. -/
  | nopOperand
  /-- op 2 with `arg` not in 0, 2, 3. -/
  | attrOperand
  /-- op 3 with `arg[3:2]` non-zero. -/
  | dirOperand
  /-- op 4 with `arg[3]` set. -/
  | scaleOperand
  /-- op 4 with `k = 7`. -/
  | scaleIndex
  /-- op 5 with `c = 0`: a sequence event addressed to channel 1. -/
  | seqChannel
  /-- `SEQPLAY` with `k` non-zero. -/
  | seqplayOperand
  /-- `SEQSTOP` with `k` non-zero. -/
  | seqstopOperand
  /-- op 5 with `sub = 3`. -/
  | seqSub
  /-- op 6 with `arg` non-zero. -/
  | tickOperand
  /-- op 7. -/
  | majorOpcode
  deriving DecidableEq, Repr

/-- Major opcode, `w[7:5]` (R100). -/
def opField (w : EventWord) : BitVec 3 := w.extractLsb' 5 3

/-- Channel field, `w[4]` (R100). -/
def channelField (w : EventWord) : BitVec 1 := w.extractLsb' 4 1

/-- Operand field, `w[3:0]` (R100). -/
def argField (w : EventWord) : BitVec 4 := w.extractLsb' 0 4

/-- Channel from its field: 0 is channel 1, 1 is channel 2 (R100). -/
def Channel.ofCode (b : BitVec 1) : Channel := if b = 0#1 then .one else .two

/-- The channel's field (R100). -/
def Channel.code : Channel → BitVec 1
  | .one => 0#1
  | .two => 1#1

/-- Direction mode from its code (R107, 10_state.md R26). -/
def DirMode.ofCode (m : BitVec 2) : DirMode :=
  if m = 0#2 then .up else if m = 1#2 then .down else if m = 2#2 then .upDown else .downUp

/-- The direction mode's code (10_state.md R26). -/
def DirMode.code : DirMode → BitVec 2
  | .up => 0#2
  | .down => 1#2
  | .upDown => 2#2
  | .downUp => 3#2

/-- op 5 on channel 2, by `sub` and `k` (R103, R109, R110). -/
def decodeSeq (sub k : BitVec 2) : Except Reserved Instr :=
  if sub = 0#2 then .ok (.seqrec k.toFin)
  else if sub = 1#2 then (if k = 0#2 then .ok .seqplay else .error .seqplayOperand)
  else if sub = 2#2 then (if k = 0#2 then .ok .seqstop else .error .seqstopOperand)
  else .error .seqSub

/-- The decoder of R103 and R113. -/
def decode (w : EventWord) : Except Reserved Instr :=
  let c := Channel.ofCode (channelField w)
  let arg := argField w
  match (opField w).toNat with
  | 0 => if w = 0#8 then .ok .nop else .error .nopOperand
  | 1 => .ok (.step c (arg.extractLsb' 0 3).toFin (arg.getLsbD 3))
  | 2 =>
    if arg = 0#4 then .ok (.attrcyc c)
    else if arg = 2#4 then .ok (.attrdec c)
    else if arg = 3#4 then .ok (.attrinc c)
    else .error .attrOperand
  | 3 => if arg.extractLsb' 2 2 = 0#2 then .ok (.dir c (.ofCode (arg.extractLsb' 0 2))) else .error .dirOperand
  | 4 =>
    if arg.getLsbD 3 then .error .scaleOperand
    else if arg.extractLsb' 0 3 = 7#3 then .error .scaleIndex
    else .ok (.scale c (arg.extractLsb' 0 3))
  | 5 => if channelField w = 0#1 then .error .seqChannel else decodeSeq (arg.extractLsb' 2 2) (arg.extractLsb' 0 2)
  | 6 => if arg = 0#4 then .ok (.tick c) else .error .tickOperand
  | _ => .error .majorOpcode

/-- An event word from its three fields (R100). -/
def eventWord (op : BitVec 3) (c : BitVec 1) (arg : BitVec 4) : EventWord := op ++ c ++ arg

/-- The encoder, from the bit patterns of R104 to R111. -/
def encode : Instr → EventWord
  | .nop => 0x00#8
  | .step c d h => eventWord 1#3 c.code (BitVec.ofBool h ++ BitVec.ofNat 3 d.val)
  | .attrcyc c => eventWord 2#3 c.code 0b0000#4
  | .attrdec c => eventWord 2#3 c.code 0b0010#4
  | .attrinc c => eventWord 2#3 c.code 0b0011#4
  | .dir c m => eventWord 3#3 c.code (0#2 ++ m.code)
  | .scale c k => eventWord 4#3 c.code (0#1 ++ k)
  | .seqrec k => eventWord 5#3 1#1 (0#2 ++ BitVec.ofNat 2 k.val)
  | .seqplay => 0xB4#8
  | .seqstop => 0xB8#8
  | .tick c => eventWord 6#3 c.code 0b0000#4

/-- The word an instruction of `nbits` bits stands for, one byte on this hardware (R100: one format, one length). -/
def tableWord (nbits w : Nat) : EventWord := BitVec.ofNat 8 (w % 2 ^ nbits)

/-- The instruction the decoder reads from a word numbered as spec/opcode_table.json numbers it. -/
def decodeTableWord (nbits w : Nat) : Option Instr := (decode (tableWord nbits w)).toOption

end Sys2Proof
end

