-- ==== Sys2Proof/Config.lean ====
section
/-! DEFINITION. What an implementation of the block fixes before reset and no event changes (spec/00_scope.md R5,
spec/70_reset_and_hazards.md R301). Where the spec leaves the value OPEN the constant has no body, so a claim holds
for every value. -/

namespace Sys2Proof

/-- `PERIOD_W`, the width of a period word in bits: OPEN, with the default 16 (00_scope.md R5; log entry 5). A period word
is only ever moved whole (20_memory.md R75), so no rule needs the value. -/
opaque Config.periodWidth : Nat

/-- A period word of the tone output (10_state.md R43). -/
abbrev Period := BitVec Config.periodWidth

/-- The contents of the pitch ROM: a total function on pitch class, accidental and octave 0..8
(40_pitch_table.md R133). -/
abbrev PeriodTable := PitchClass → Accidental → Octave → Period

/-- `PERIOD_TABLE`: OPEN, the spec gives no period value (40_pitch_table.md R133; log entry 4). -/
opaque Config.periodTable : PeriodTable

/-- `SPLIT[c]`, the modal split index of each channel, legal values 0..8: OPEN (00_scope.md R5, 41_engine.md R158;
log entry 3). The spec's default, 1, is a hypothesis of whoever needs it. -/
opaque Config.split : Channel → Fin 9

end Sys2Proof
end

