-- ==== Sys2Proof/Machine/State.lean ====
section
/-! DEFINITION. The architectural state of the block and its value after reset (spec/10_state.md R20, R60), as plain
data, with the two things the model adds to it: the ports' `ev_*` record of the present cycle and the environment's
input stream (log entries 1 and 2). -/

namespace Sys2Proof.Machine

open Sys2Proof

/-- Why the machine stops with a fault: there is no such reason. No event of the block can fail, trap, fault or stall
(spec/60_exceptions.md R260), so nothing raises a fault and the type has no constructor (safe: a claim that no step
faults is a claim about the type). -/
inductive Fault where
  deriving DecidableEq, Repr

/-- Why an instruction has no meaning. -/
inductive Refusal where
  /-- Raised by an arm of `exec` whose instruction has no meaning yet; safe. No arm raises it: every row of the opcode
  table has its meaning. -/
  | notModelled (mnemonic : String)
  deriving DecidableEq, Repr

/-- ChannelControl (10_state.md R22 to R28). Counts are naturals: no arithmetic of the block overflows its width
(00_scope.md R9); `ChannelState.regs` gives the registers at their widths. -/
structure Control where
  /-- `rate`, 1..9 (R22). -/
  rate : Nat
  /-- `stepCount`, 1..9 (R23). -/
  stepCount : Nat
  /-- `octave`, 0..8 (R24). -/
  octave : Nat
  /-- `dir`, the direction mode (R26). -/
  dir : DirMode
  /-- `attribute`, the field under edit (R27). -/
  attr : Attr
  /-- `scaleMode` (R28). -/
  scaleMode : ScaleMode
  deriving DecidableEq, Repr

/-- EngineState (10_state.md R30 to R36). -/
structure EngineState where
  /-- `cursor`: `none` is -1, idle (R30). -/
  cursor : Option Degree
  /-- `run`, 0..9 (R31). -/
  run : Nat
  /-- `phase` (R32). -/
  phase : Direction
  /-- `chopTop` (R33). -/
  chopTop : Bool
  /-- `chopBottom` (R34). -/
  chopBottom : Bool
  /-- `octaveWrap` (R35). -/
  octaveWrap : Bool
  /-- `snt`, singleNoteToggle (R36). -/
  snt : Bool
  deriving DecidableEq, Repr

/-- Scheduler state (10_state.md R38 to R40). -/
structure Scheduler where
  /-- `beat`, 0..8 between events (R38). -/
  beat : Nat
  /-- `noteDur`, 1..9 (R39). -/
  noteDur : Nat
  /-- `scanPos`, modulo 256 (R40). -/
  scanPos : BitVec 8
  deriving DecidableEq, Repr

/-- Output-stage state (10_state.md R41 to R44). -/
structure OutputStage where
  /-- `gate` (R41). -/
  gate : Bool
  /-- `restActive` (R42). -/
  restActive : Bool
  /-- `period` (R43). -/
  period : Period
  /-- `bargraph` (R44). -/
  bargraph : BitVec 8
  deriving DecidableEq, Repr

/-- An engine output (00_scope.md R8). -/
inductive EngineOut where
  /-- `Note(p, a, o, dur, deg)`. -/
  | note (p : PitchClass) (a : Accidental) (o : Octave) (dur : Nat) (deg : Degree)
  /-- `Rest(dur)`. -/
  | rest (dur : Nat)
  /-- `None`: zero NoteEvents. -/
  | none
  deriving DecidableEq, Repr

/-- What one engine invocation presents: its output and the phrase-complete signal (41_engine.md R150, 10_state.md R48). -/
structure Emission where
  out : EngineOut
  phrase : Bool
  deriving DecidableEq, Repr

/-- All there is once per channel (10_state.md R20). -/
structure ChannelState where
  /-- `mask`, the live StepMask (R21). -/
  mask : Mask
  ctl : Control
  eng : EngineState
  sch : Scheduler
  stage : OutputStage
  /-- The `ev_*` port in this cycle: `none` is `ev_valid = 0` (R48). An output, not state of the spec (log entry 2). -/
  port : Option Emission
  deriving DecidableEq, Repr

/-- The Sequence Recorder of channel 2 (10_state.md R45 to R47). -/
structure Recorder where
  /-- `seq[0..3]` (R45). -/
  seq : Vector Mask 4
  /-- `seqCursor` (R46). -/
  seqCursor : Fin 4
  /-- `play` (R47). -/
  play : Bool
  deriving DecidableEq, Repr

/-- The input pins in one clock cycle (30_encoding.md R101): `rst`, `tick[1:0]` and the command port, `cmd = none` being
`cmd_valid = 0`. -/
structure Pins where
  rst : Bool
  tick0 : Bool
  tick1 : Bool
  cmd : Option EventWord
  deriving DecidableEq, Repr

/-- The machine. `input` is the model's own: the cycles the environment has yet to present, oldest first
(log entry 1). -/
structure State where
  ch1 : ChannelState
  ch2 : ChannelState
  recorder : Recorder
  input : List Pins
  deriving DecidableEq, Repr

/-- A channel right after reset (10_state.md R60); the channels differ in `octave` only. -/
def ChannelState.reset (octave : Nat) : ChannelState where
  mask := 0x00#8
  ctl := ⟨1, 2, octave, .up, .stepCount, .ionian⟩
  eng := ⟨none, 0, .asc, false, false, false, false⟩
  sch := ⟨0, 1, 0#8⟩
  stage := ⟨false, true, 0, 0x00#8⟩
  port := none

/-- The recorder right after reset (10_state.md R60): stopped, four empty slots. -/
def Recorder.reset : Recorder where
  seq := #v[0x00#8, 0x00#8, 0x00#8, 0x00#8]
  seqCursor := 0
  play := false

/-- The machine right after reset (10_state.md R60), the environment presenting nothing. -/
def State.reset : State where
  ch1 := .reset 3
  ch2 := .reset 5
  recorder := .reset
  input := []

end Sys2Proof.Machine
end

