-- ==== Sys2Proof/Machine/Ops.lean ====
section
/-! DEFINITION. The named operations over the state and over masks that the meanings share (spec/00_scope.md R6, R7;
spec/44_sequence.md R243). There is no addressed memory (spec/20_memory.md R70) and no exception to take
(spec/60_exceptions.md R260, R262). -/

namespace Sys2Proof.Machine

open Sys2Proof

/-- One channel's state. -/
def State.chan (s : State) : Channel → ChannelState
  | .one => s.ch1
  | .two => s.ch2

/-- Replace one channel's state; every write to a channel goes through here. -/
def State.setChan (s : State) (c : Channel) (x : ChannelState) : State :=
  match c with
  | .one => { s with ch1 := x }
  | .two => { s with ch2 := x }

/-- Replace the recorder of channel 2. -/
def State.setRecorder (s : State) (r : Recorder) : State := { s with recorder := r }

/-- `ev_valid = 0` on both channels: the start of a clock cycle (70_reset_and_hazards.md R303). -/
def State.clearPorts (s : State) : State :=
  { s with ch1 := { s.ch1 with port := none }, ch2 := { s.ch2 with port := none } }

/-- The scale degrees, or scan indices, in increasing order. -/
def degrees : List Degree := [0, 1, 2, 3, 4, 5, 6, 7]

/-- Bit `i` of a mask (00_scope.md R6). -/
def held (m : Mask) (i : Degree) : Bool := m.getLsbD i.val

/-- `onehot(d)` (00_scope.md R7). -/
def onehot (d : Degree) : BitVec 8 := 1#8 <<< d.val

/-- `m[d] <- h`, the other bits unchanged (42_control.md R201). -/
def setHeld (m : Mask) (d : Degree) (h : Bool) : Mask :=
  if h then m ||| onehot d else m &&& ~~~ onehot d

/-- `rev8(m)`: bit `i` of the result is bit `7 - i` of `m` (00_scope.md R7). -/
def rev8 (m : Mask) : Mask := m.reverse

/-- The position mirrored in the eight: `7 - i`. -/
def mirror (i : Degree) : Degree := i.rev

/-- `popcount(m)` (00_scope.md R7). -/
def popcount (m : Mask) : Nat := degrees.countP (held m)

/-- `lowbit(m)` for `m` non-zero (00_scope.md R7); the answer for 0 is never read. -/
def lowbit (m : Mask) : Degree := (degrees.find? (held m)).getD 0

/-- `EffMask(c)`: the StepMask the engine of channel `c` sees (44_sequence.md R243). -/
def effMask (c : Channel) (s : State) : Mask :=
  match c with
  | .one => s.ch1.mask
  | .two => if s.recorder.play then s.recorder.seq[s.recorder.seqCursor] else s.ch2.mask

end Sys2Proof.Machine
end

