-- ==== Sys2Proof/Machine/Operands.lean ====
section
/-! DEFINITION. Every operand form and register code of the block: the scale index of `SCALE`, the code of every
enumeration, and the registers at the widths of the state table (spec/30_encoding.md R102, R103; spec/10_state.md R20,
R26 to R32; spec/40_pitch_table.md R130). -/

namespace Sys2Proof.Machine

open Sys2Proof

/-- The scale mode an index names; 7 names none (10_state.md R28). -/
def scaleModeOfIndex (k : BitVec 3) : Option ScaleMode :=
  match k.toNat with
  | 0 => some .ionian
  | 1 => some .dorian
  | 2 => some .phrygian
  | 3 => some .lydian
  | 4 => some .mixolydian
  | 5 => some .aeolian
  | 6 => some .locrian
  | _ => none

/-- A scale mode's index, 0..6 (10_state.md R28, 40_pitch_table.md R131). -/
def scaleIndex : ScaleMode → Fin 7
  | .ionian => 0
  | .dorian => 1
  | .phrygian => 2
  | .lydian => 3
  | .mixolydian => 4
  | .aeolian => 5
  | .locrian => 6

/-- The 3-bit code of `scaleMode` (10_state.md R28). -/
def scaleCode (k : ScaleMode) : BitVec 3 := BitVec.ofNat 3 (scaleIndex k).val

/-- The 2-bit code of `attribute` (10_state.md R27). -/
def attrCode : Attr → BitVec 2
  | .stepCount => 0#2
  | .rate => 1#2
  | .octave => 2#2

/-- The 1-bit code of `phase` (10_state.md R32). -/
def directionCode : Direction → BitVec 1
  | .asc => 0#1
  | .desc => 1#1

/-- The 4-bit two's-complement code of `cursor`: -1 is `0b1111` (10_state.md R30). -/
def cursorCode : Option Degree → BitVec 4
  | none => 0b1111#4
  | some i => BitVec.ofNat 4 i.val

/-- The 3-bit code of a pitch class, alphabetical (40_pitch_table.md R130). -/
def pitchCode : PitchClass → BitVec 3
  | .A => 0#3
  | .B => 1#3
  | .C => 2#3
  | .D => 3#3
  | .E => 4#3
  | .F => 5#3
  | .G => 6#3

/-- The 1-bit code of an accidental (40_pitch_table.md R130). -/
def accidentalCode : Accidental → BitVec 1
  | .natural => 0#1
  | .flat => 1#1

/-- The registers of a channel at the widths of the table of 10_state.md R20. -/
structure ChannelRegs where
  mask : BitVec 8
  rate : BitVec 4
  stepCount : BitVec 4
  octave : BitVec 4
  dir : BitVec 2
  attr : BitVec 2
  scaleMode : BitVec 3
  cursor : BitVec 4
  run : BitVec 4
  phase : BitVec 1
  chopTop : BitVec 1
  chopBottom : BitVec 1
  octaveWrap : BitVec 1
  snt : BitVec 1
  beat : BitVec 4
  noteDur : BitVec 4
  scanPos : BitVec 8
  gate : BitVec 1
  restActive : BitVec 1
  period : Period
  bargraph : BitVec 8
  deriving DecidableEq, Repr

/-- The registers of a channel as bits (10_state.md R20). -/
def ChannelState.regs (x : ChannelState) : ChannelRegs where
  mask := x.mask
  rate := BitVec.ofNat 4 x.ctl.rate
  stepCount := BitVec.ofNat 4 x.ctl.stepCount
  octave := BitVec.ofNat 4 x.ctl.octave
  dir := x.ctl.dir.code
  attr := attrCode x.ctl.attr
  scaleMode := scaleCode x.ctl.scaleMode
  cursor := cursorCode x.eng.cursor
  run := BitVec.ofNat 4 x.eng.run
  phase := directionCode x.eng.phase
  chopTop := BitVec.ofBool x.eng.chopTop
  chopBottom := BitVec.ofBool x.eng.chopBottom
  octaveWrap := BitVec.ofBool x.eng.octaveWrap
  snt := BitVec.ofBool x.eng.snt
  beat := BitVec.ofNat 4 x.sch.beat
  noteDur := BitVec.ofNat 4 x.sch.noteDur
  scanPos := x.sch.scanPos
  gate := BitVec.ofBool x.stage.gate
  restActive := BitVec.ofBool x.stage.restActive
  period := x.stage.period
  bargraph := x.stage.bargraph

end Sys2Proof.Machine
end

