-- ==== Sys2Proof/Machine/Control.lean ====
section
/-! DEFINITION. The control events: NOP, the StepMask write, attribute selection and adjustment, mode selection
(spec/42_control.md R200 to R209). -/

namespace Sys2Proof.Machine

open Sys2Proof

/-- Rewrite the ChannelControl of channel `c`, and nothing else. -/
def updateControl (c : Channel) (f : Control → Control) (s : State) : State :=
  s.setChan c { s.chan c with ctl := f (s.chan c).ctl }

/-- `CEIL[k]`, the joint clamp table keyed by the other field (R208). -/
def ceiling (k : Nat) : Nat := 9 - k

/-- The next attribute of the cycle (R202). -/
def nextAttr : Attr → Attr
  | .stepCount => .rate
  | .rate => .octave
  | .octave => .stepCount

/-- An increment of the attribute under edit (R203). -/
def increase (ctl : Control) : Control :=
  match ctl.attr with
  | .stepCount => { ctl with stepCount := min (ctl.stepCount + 1) (ceiling ctl.octave) }
  | .rate => { ctl with rate := min (ctl.rate + 1) 9 }
  | .octave => { ctl with octave := min (ctl.octave + 1) (ceiling ctl.stepCount) }

/-- A decrement of the attribute under edit (R204). -/
def decrease (ctl : Control) : Control :=
  match ctl.attr with
  | .stepCount => { ctl with stepCount := max (ctl.stepCount - 1) 1 }
  | .rate => { ctl with rate := max (ctl.rate - 1) 1 }
  | .octave => { ctl with octave := max (ctl.octave - 1) 0 }

/-- `NOP` (R200). -/
def execNop (s : State) : Host.Outcome State Fault Refusal := .next s

/-- `STEP c, d, h` (R201). -/
def execStep (c : Channel) (d : Degree) (h : Bool) (s : State) : Host.Outcome State Fault Refusal :=
  .next (s.setChan c { s.chan c with mask := setHeld (s.chan c).mask d h })

/-- `ATTRCYC c` (R202). -/
def execAttrcyc (c : Channel) (s : State) : Host.Outcome State Fault Refusal :=
  .next (updateControl c (fun ctl => { ctl with attr := nextAttr ctl.attr }) s)

/-- `ATTRINC c` (R203). -/
def execAttrinc (c : Channel) (s : State) : Host.Outcome State Fault Refusal := .next (updateControl c increase s)

/-- `ATTRDEC c` (R204). -/
def execAttrdec (c : Channel) (s : State) : Host.Outcome State Fault Refusal := .next (updateControl c decrease s)

/-- `DIR c, m` (R205). -/
def execDir (c : Channel) (m : DirMode) (s : State) : Host.Outcome State Fault Refusal :=
  .next (updateControl c (fun ctl => { ctl with dir := m }) s)

/-- `SCALE c, k` (R206). `k = 7` has no row of the ROM and no event word: it is ignored as the reserved word it would
be (30_encoding.md R112). -/
def execScale (c : Channel) (k : BitVec 3) (s : State) : Host.Outcome State Fault Refusal :=
  match scaleModeOfIndex k with
  | some mode => .next (updateControl c (fun ctl => { ctl with scaleMode := mode }) s)
  | none => .next s

end Sys2Proof.Machine
end

