-- ==== Sys2Proof/Machine/Roms.lean ====
section
/-! DEFINITION. The scale-degree ROM and the pitch ROM (spec/40_pitch_table.md R130 to R137; addresses and data words
spec/20_memory.md R71, R72). Their indices are bounded types, so the addresses that are never generated do not exist
(spec/93_implementation_defined.md U2). -/

namespace Sys2Proof.Machine

open Sys2Proof

/-- `ION`, the Ionian row (40_pitch_table.md R131). -/
def ionianRow : Fin 7 → PitchClass
  | 0 => .C
  | 1 => .D
  | 2 => .E
  | 3 => .F
  | 4 => .G
  | 5 => .A
  | 6 => .B

/-- The ascending sequence of a scale mode: the Ionian row rotated, every entry natural (40_pitch_table.md R131). -/
def scaleAsc (k : ScaleMode) (i : Degree) : PitchClass × Accidental :=
  (ionianRow (Fin.ofNat 7 (i.val + (scaleIndex k).val)), .natural)

/-- `ScaleROM(k, d, i)`: the descending sequence holds the ascending one's exact reverse (40_pitch_table.md R131,
R132). -/
def scaleRom (k : ScaleMode) (d : Direction) (i : Degree) : PitchClass × Accidental :=
  match d with
  | .asc => scaleAsc k i
  | .desc => scaleAsc k (mirror i)

/-- C and F have no flat entry: the natural's period is read (40_pitch_table.md R133, R134). -/
def pitchEntry (p : PitchClass) (a : Accidental) : Accidental :=
  match p with
  | .C => .natural
  | .F => .natural
  | .A => a
  | .B => a
  | .D => a
  | .E => a
  | .G => a

/-- `PitchROM(p, a, o)` over a given `PERIOD_TABLE` (40_pitch_table.md R133). -/
def pitchRom (table : PeriodTable) (p : PitchClass) (a : Accidental) (o : Octave) : Period := table p (pitchEntry p a) o

/-- The 7-bit address of a `ScaleROM` entry, `k ‖ d ‖ i` (20_memory.md R71). -/
def scaleRomAddress (k : ScaleMode) (d : Direction) (i : Degree) : BitVec 7 :=
  scaleCode k ++ directionCode d ++ BitVec.ofNat 3 i.val

/-- The 4-bit data word of a `ScaleROM` entry, `p ‖ a` (20_memory.md R71). -/
def scaleRomWord (k : ScaleMode) (d : Direction) (i : Degree) : BitVec 4 :=
  pitchCode (scaleRom k d i).1 ++ accidentalCode (scaleRom k d i).2

/-- The 8-bit address of a `PitchROM` entry, `o ‖ p ‖ a` (20_memory.md R72). -/
def pitchRomAddress (p : PitchClass) (a : Accidental) (o : Octave) : BitVec 8 :=
  BitVec.ofNat 4 o.val ++ pitchCode p ++ accidentalCode a

/-- `TESTPERIOD`, the stand-in table of the spec's vectors; no claim about the hardware's periods
(40_pitch_table.md R135). -/
def testPeriod : PeriodTable := fun p a o =>
  BitVec.ofNat Config.periodWidth
    (16 * o.val + 2 * (pitchCode p).toNat + (accidentalCode (pitchEntry p a)).toNat)

end Sys2Proof.Machine
end

