-- ==== Sys2Proof/Machine/Output.lean ====
section
/-! DEFINITION. The output stage and the output ports (spec/43_tick.md R222 to R224; spec/10_state.md R48, R49;
spec/30_encoding.md R101; spec/60_exceptions.md R275). -/

namespace Sys2Proof.Machine

open Sys2Proof

/-- `Emit(c, ev)` (43_tick.md R222). -/
def emit (table : PeriodTable) (ev : EngineOut) (x : ChannelState) : ChannelState :=
  match ev with
  | .note p a o dur deg =>
    { x with
      stage := { x.stage with period := pitchRom table p a o, restActive := false, bargraph := onehot deg }
      sch := { x.sch with noteDur := dur } }
  | .rest dur =>
    { x with
      stage := { x.stage with restActive := true, bargraph := 0x00#8 }
      sch := { x.sch with noteDur := dur } }
  | .none => x

/-- The `ev_*` fields of a valid record at their widths (10_state.md R48). -/
structure EvPins where
  kind : BitVec 2
  pc : BitVec 3
  acc : BitVec 1
  oct : BitVec 4
  dur : BitVec 4
  deg : BitVec 3
  phrase : BitVec 1
  deriving DecidableEq, Repr

/-- The record as pins (10_state.md R48). -/
def Emission.pins (r : Emission) : EvPins :=
  match r.out with
  | .note p a o dur deg =>
    ⟨2#2, pitchCode p, accidentalCode a, BitVec.ofNat 4 o.val, BitVec.ofNat 4 dur, BitVec.ofNat 3 deg.val, BitVec.ofBool r.phrase⟩
  | .rest dur => ⟨1#2, 0#3, 0#1, 0#4, BitVec.ofNat 4 dur, 0#3, BitVec.ofBool r.phrase⟩
  | .none => ⟨0#2, 0#3, 0#1, 0#4, 0#4, 0#3, BitVec.ofBool r.phrase⟩

/-- `attrValue[c]`: the value of the attribute under edit (10_state.md R49). -/
def attrValue (ctl : Control) : BitVec 4 :=
  match ctl.attr with
  | .stepCount => BitVec.ofNat 4 ctl.stepCount
  | .rate => BitVec.ofNat 4 ctl.rate
  | .octave => BitVec.ofNat 4 ctl.octave

/-- The output ports of a channel (30_encoding.md R101). `ev = none` is `ev_valid = 0`; the other `ev_*` pins are then
left open. -/
structure ChannelOutputs where
  period : Period
  gate : BitVec 1
  rest : BitVec 1
  bargraph : BitVec 8
  attrSel : BitVec 2
  attrValue : BitVec 4
  scanPos : BitVec 8
  ev : Option EvPins
  deriving DecidableEq, Repr

/-- The levels the block drives for channel `c` (30_encoding.md R101). -/
def outputs (s : State) (c : Channel) : ChannelOutputs where
  period := (s.chan c).stage.period
  gate := BitVec.ofBool (s.chan c).stage.gate
  rest := BitVec.ofBool (s.chan c).stage.restActive
  bargraph := (s.chan c).stage.bargraph
  attrSel := attrCode (s.chan c).ctl.attr
  attrValue := Sys2Proof.Machine.attrValue (s.chan c).ctl
  scanPos := (s.chan c).sch.scanPos
  ev := (s.chan c).port.map Emission.pins

end Sys2Proof.Machine
end

