-- ==== Sys2Proof/Machine/Sequence.lean ====
section
/-! DEFINITION. The Sequence Recorder of channel 2: its three events and the advance at the end of a TICK
(spec/44_sequence.md R240 to R246; the substitution `EffMask` is in Ops.lean). -/

namespace Sys2Proof.Machine

open Sys2Proof

/-- `SEQREC k`: the live mask of channel 2, playing or not (R240). -/
def execSeqrec (k : Fin 4) (s : State) : Host.Outcome State Fault Refusal :=
  .next (s.setRecorder { s.recorder with seq := s.recorder.seq.set k s.ch2.mask })

/-- `SEQPLAY` (R241). -/
def execSeqplay (s : State) : Host.Outcome State Fault Refusal :=
  .next (s.setRecorder { s.recorder with play := true, seqCursor := 0 })

/-- "force Rest" on a channel: `restActive`, `noteDur` and `bargraph` as the output stage's taking of `Rest(rate)`
leaves them, the rest kept (R242). -/
def forceRest (x : ChannelState) : ChannelState :=
  { x with
    stage := { x.stage with restActive := true, bargraph := 0x00#8 }
    sch := { x.sch with noteDur := x.ctl.rate } }

/-- `SEQSTOP` (R242). -/
def execSeqstop (s : State) : Host.Outcome State Fault Refusal :=
  .next ((s.setChan .two (forceRest (s.chan .two))).setRecorder { s.recorder with play := false, seqCursor := 0 })

/-- `SeqAdvance(phr)` (R244). -/
def seqAdvance (phr : Bool) (r : Recorder) : Recorder :=
  if r.play && phr then { r with seqCursor := r.seqCursor + 1 } else r

end Sys2Proof.Machine
end

