-- ==== Sys2Proof/Machine/Flags.lean ====
section
/-! DEFINITION. The rules of the engine's sequencing pointers and one-bit flags: selection, normalisation, pass end,
suppression, arming and idle (spec/10_state.md R37; spec/41_engine.md R151, R152, R154, R159 to R162, R168). -/

namespace Sys2Proof.Machine

open Sys2Proof

/-- The opposite direction. -/
def flip : Direction → Direction
  | .asc => .desc
  | .desc => .asc

/-- The modes that compose the two scanners. -/
def bidirectional : DirMode → Bool
  | .up => false
  | .down => false
  | .upDown => true
  | .downUp => true

/-- The idle reset (R151); `phase` is not written. -/
def idleReset (e : EngineState) : EngineState :=
  { e with cursor := none, run := 0, chopTop := false, chopBottom := false, octaveWrap := false, snt := false }

/-- The direction of an invocation (R152): forced in Up and Down; the start phase is taken on leaving idle. -/
def selectPhase (dir : DirMode) (cursor : Option Degree) (phase : Direction) : Direction :=
  match dir with
  | .up => .asc
  | .down => .desc
  | .upDown => if cursor = none then .asc else phase
  | .downUp => if cursor = none then .desc else phase

/-- `single`: exactly one degree held and `stepCount = 1` (R152, R166). -/
def isSingle (m : Mask) (ctl : Control) : Bool := popcount m == 1 && ctl.stepCount == 1

/-- `alt`: direct alternation (R152, R168). -/
def isAlt (m : Mask) (ctl : Control) : Bool := bidirectional ctl.dir && ctl.stepCount == 1 && decide (popcount m ≤ 2)

/-- `compose`: composition of the two scanners (R152, R165). -/
def isCompose (m : Mask) (ctl : Control) : Bool := bidirectional ctl.dir && !isAlt m ctl

/-- `Select` (R152): the phase, and the chop flags cleared outside composition. -/
def select (m : Mask) (ctl : Control) (e : EngineState) : EngineState :=
  { e with
    phase := selectPhase ctl.dir e.cursor e.phase
    chopTop := isCompose m ctl && e.chopTop
    chopBottom := isCompose m ctl && e.chopBottom }

/-- `Normalise(d)` (R154). -/
def normaliseRun (stepCount : Nat) (d : Direction) (run : Nat) : Nat :=
  match d with
  | .asc => if stepCount ≤ run then 0 else run
  | .desc => if run = 0 ∨ stepCount < run then stepCount else run

/-- The octave offset of a stop (R158). -/
def offset (d : Direction) (run : Nat) : Nat :=
  match d with
  | .asc => run
  | .desc => run - 1

/-- A scan under way: the engine state, the direction in force, the scan index to examine, the phrase signal so far. -/
structure Scan where
  eng : EngineState
  d : Direction
  i : Degree
  phr : Bool
  deriving DecidableEq, Repr

/-- The end of an ascending pass (R160, R162). -/
def ascPassEnd (ctl : Control) (compose : Bool) (x : Scan) : Scan :=
  if x.eng.run + 1 < ctl.stepCount then { x with eng := { x.eng with run := x.eng.run + 1 } }
  else if compose then
    { x with
      eng := { x.eng with run := ctl.stepCount, chopTop := true, phase := .desc }
      d := .desc
      phr := x.phr || ctl.dir == .downUp }
  else { x with eng := { x.eng with run := 0 } }

/-- The end of a descending pass (R160, R162). -/
def descPassEnd (ctl : Control) (compose : Bool) (x : Scan) : Scan :=
  if x.eng.run - 1 ≠ 0 then { x with eng := { x.eng with run := x.eng.run - 1 } }
  else if compose then
    { x with
      eng := { x.eng with run := 0, chopBottom := true, phase := .asc }
      d := .asc
      phr := x.phr || ctl.dir == .upDown }
  else { x with eng := { x.eng with run := ctl.stepCount } }

/-- `PassEnd(d, compose)` (R160). -/
def passEnd (ctl : Control) (compose : Bool) (x : Scan) : Scan :=
  match x.d with
  | .asc => ascPassEnd ctl compose x
  | .desc => descPassEnd ctl compose x

/-- Whether `octaveWrap` suppresses a stop on scan index `i` (R159). -/
def wrapSuppresses (e : EngineState) (i : Degree) : Bool := decide (i = 0) && e.octaveWrap

/-- Whether a chop flag suppresses a stop of direction `d` (R159). -/
def chopSuppresses (e : EngineState) (compose : Bool) (d : Direction) : Bool :=
  compose && (match d with | .asc => e.chopBottom | .desc => e.chopTop)

/-- The flags after a stop: those that apply to it are consumed (R159). -/
def consumeFlags (e : EngineState) (compose : Bool) (d : Direction) (i : Degree) : EngineState :=
  { e with
    octaveWrap := e.octaveWrap && decide (i ≠ 0)
    chopTop := e.chopTop && !(compose && decide (d = .desc))
    chopBottom := e.chopBottom && !(compose && decide (d = .asc)) }

/-- A stop on scan index 7 arms `octaveWrap` when scan index 0 is held too (R161). -/
def armWrap (sm : Mask) (e : EngineState) : EngineState := { e with octaveWrap := e.octaveWrap || held sm 0 }

/-- `Alternate` (R168). -/
def alternate (e : EngineState) : EngineState := { e with phase := flip e.phase, cursor := e.cursor.map mirror }

end Sys2Proof.Machine
end

