-- ==== Sys2Proof/Machine/Engine.lean ====
section
/-! DEFINITION. The Arpeggiation Engine, `Engine(c)` (spec/41_engine.md R150 to R171): a function of the modal split
index, the effective mask, ChannelControl and the EngineState of the channel, writing the EngineState only. -/

namespace Sys2Proof.Machine

open Sys2Proof

/-- The scan mask: the mask itself ascending, its 8-bit reversal descending (R153). -/
def scanMask (d : Direction) (m : Mask) : Mask :=
  match d with
  | .asc => m
  | .desc => rev8 m

/-- The scale degree scan index `i` stands for (R159). -/
def degreeAt (d : Direction) (i : Degree) : Degree :=
  match d with
  | .asc => i
  | .desc => mirror i

/-- The first scan index examined: `(cursor + 1) mod 8` (R155). -/
def scanStart : Option Degree → Degree
  | none => 0
  | some i => i + 1

/-- The octave a stop asks for: `O + off + bump` (R158). -/
def stopOctave (split : Fin 9) (ctl : Control) (off : Nat) (i : Degree) : Nat :=
  ctl.octave + off + (if i.val < split.val then 1 else 0)

/-- The octave of a valid stop; `none` where the stop is invalid (R158, both arms). -/
def validOctave (split : Fin 9) (ctl : Control) (off : Nat) (i : Degree) : Option Octave :=
  if i = 7 ∧ ctl.octave + off = 8 then none
  else if h : stopOctave split ctl off i < 9 then some ⟨stopOctave split ctl off i, h⟩
  else none

/-- The output of a stop that nothing suppresses (R158, R159; R166 with `off = 0`). -/
def sound (split : Fin 9) (ctl : Control) (d : Direction) (off : Nat) (i : Degree) : EngineOut :=
  match validOctave split ctl off i with
  | some o => .note (scaleRom ctl.scaleMode d i).1 (scaleRom ctl.scaleMode d i).2 o ctl.rate (degreeAt d i)
  | none => .none

/-- The output of a stop (R159). -/
def stopOutput (split : Fin 9) (ctl : Control) (compose : Bool) (e : EngineState) (d : Direction) (i : Degree) :
    EngineOut :=
  if wrapSuppresses e i || chopSuppresses e compose d then .none else sound split ctl d (offset d e.run) i

/-- Examine an index that is not held and go on to the next (R155, R156). -/
def passOver (ctl : Control) (compose : Bool) (x : Scan) : Scan :=
  let x := if x.i = 0 then { x with eng := { x.eng with octaveWrap := false } } else x
  let x := if x.i = 7 then passEnd ctl compose x else x
  { x with i := x.i + 1 }

/-- The loop of R153, for at most `fuel` examinations of an index that is not held. -/
def scanLoop (m : Mask) (ctl : Control) (compose : Bool) : Nat → Scan → Scan
  | 0, x => x
  | fuel + 1, x => if held (scanMask x.d m) x.i then x else scanLoop m ctl compose fuel (passOver ctl compose x)

/-- The loop examines at most 15 indices that are not held (R170). -/
def scanBound : Nat := 15

/-- The scan from the cursor to its stop (R153 to R156). -/
def findStop (m : Mask) (ctl : Control) (compose : Bool) (d : Direction) (e : EngineState) : Scan :=
  scanLoop m ctl compose scanBound
    { eng := { e with snt := false, run := normaliseRun ctl.stepCount d e.run }, d := d, i := scanStart e.cursor, phr := false }

/-- The stop: the cursor, the flags it consumes, and on scan index 7 the arming and the pass end (R157, R159, R161). -/
def finishStop (m : Mask) (ctl : Control) (compose : Bool) (x : Scan) : Scan :=
  let e := consumeFlags { x.eng with cursor := some x.i } compose x.d x.i
  if x.i = 7 then passEnd ctl compose { x with eng := armWrap (scanMask x.d m) e } else { x with eng := e }

/-- `RegularScan(d, compose)` (R153). -/
def regularScan (split : Fin 9) (m : Mask) (ctl : Control) (compose : Bool) (d : Direction) (e : EngineState) :
    EngineState × Emission :=
  let x := findStop m ctl compose d e
  let y := finishStop m ctl compose x
  (y.eng, ⟨stopOutput split ctl compose x.eng x.d x.i, y.phr⟩)

/-- `SingleNote(d)` (R166). -/
def singleNote (split : Fin 9) (m : Mask) (ctl : Control) (d : Direction) (e : EngineState) : EngineState × Emission :=
  let i := lowbit (scanMask d m)
  if e.snt then ({ e with octaveWrap := false, snt := false }, ⟨.rest ctl.rate, false⟩)
  else ({ e with octaveWrap := false, snt := true, cursor := some i }, ⟨sound split ctl d 0 i, false⟩)

/-- The single-note case or the regular scan, in the selected direction (R150). -/
def scanner (split : Fin 9) (m : Mask) (ctl : Control) (e : EngineState) : EngineState × Emission :=
  if isSingle m ctl then singleNote split m ctl e.phase e
  else regularScan split m ctl (isCompose m ctl) e.phase e

/-- `Engine(c)` (R150). -/
def engine (split : Fin 9) (m : Mask) (ctl : Control) (e : EngineState) : EngineState × Emission :=
  if m = 0 then (idleReset e, ⟨.rest ctl.rate, false⟩)
  else
    let r := scanner split m ctl (select m ctl e)
    (if isAlt m ctl then alternate r.1 else r.1, r.2)

end Sys2Proof.Machine
end

