-- ==== Sys2Proof/Machine/Tick.lean ====
section
/-! DEFINITION. The Tick Scheduler: `TICK c` (spec/43_tick.md R220, R221, R225, R226). -/

namespace Sys2Proof.Machine

open Sys2Proof

/-- Step 1 of a TICK: the gate toggles unless a Rest was in effect before it (R220). -/
def toggleGate (o : OutputStage) : OutputStage := { o with gate := if o.restActive then o.gate else !o.gate }

/-- Whether this TICK invokes the engine: steps 2 and 3, on the new beat (R220). -/
def invokes (x : ChannelState) : Bool := decide (x.sch.noteDur ≤ x.sch.beat + 1)

/-- A TICK that does not invoke the engine (R220): it presents no record of its own, and a record the channel already
presents in this cycle stays on the port to the end of it (70_reset_and_hazards.md R303, 10_state.md R48;
log entry 8). -/
def countBeat (x : ChannelState) : ChannelState :=
  { x with stage := toggleGate x.stage, sch := { x.sch with beat := x.sch.beat + 1 } }

/-- A TICK that invokes the engine over the effective mask `m` (R220). -/
def invoke (split : Fin 9) (table : PeriodTable) (m : Mask) (x : ChannelState) : ChannelState :=
  let r := engine split m x.ctl x.eng
  emit table r.2.out
    { x with
      stage := toggleGate x.stage
      sch := { x.sch with beat := 0, scanPos := x.sch.scanPos + 1 }
      eng := r.1
      port := some r.2 }

/-- What a TICK does to its channel (R220). -/
def tickChannel (split : Fin 9) (table : PeriodTable) (m : Mask) (x : ChannelState) : ChannelState :=
  if invokes x then invoke split table m x else countBeat x

/-- Whether the record a channel presents signals phrase complete; `false` where there is none. -/
def phraseSignal (x : ChannelState) : Bool := x.port.any (·.phrase)

/-- The phrase signal of this TICK, before it `x` and after it `y`: that of its own invocation (R220). -/
def tickPhrase (x y : ChannelState) : Bool := invokes x && phraseSignal y

/-- The sequence hook: only channel 2 has it (R220, 44_sequence.md R244). -/
def hook (c : Channel) (phr : Bool) (r : Recorder) : Recorder :=
  match c with
  | .one => r
  | .two => seqAdvance phr r

/-- `TICK c` over a given modal split index and period table (R220). -/
def tickWith (split : Fin 9) (table : PeriodTable) (c : Channel) (s : State) : State :=
  let x := tickChannel split table (effMask c s) (s.chan c)
  (s.setChan c x).setRecorder (hook c (tickPhrase (s.chan c) x) s.recorder)

/-- `TICK c` (R220). -/
def execTick (c : Channel) (s : State) : Host.Outcome State Fault Refusal :=
  .next (tickWith (Config.split c) Config.periodTable c s)

end Sys2Proof.Machine
end

