-- ==== Sys2Proof/Machine/Dispatch.lean ====
section
/-! DEFINITION. One arm per event (spec/opcode_table.json). -/

namespace Sys2Proof.Machine

open Sys2Proof

def exec (i : Instr) (s : State) : Host.Outcome State Fault Refusal :=
  match i with
  | .nop => Sys2Proof.Machine.execNop s
  | .step c d h => Sys2Proof.Machine.execStep c d h s
  | .attrcyc c => Sys2Proof.Machine.execAttrcyc c s
  | .attrdec c => Sys2Proof.Machine.execAttrdec c s
  | .attrinc c => Sys2Proof.Machine.execAttrinc c s
  | .dir c m => Sys2Proof.Machine.execDir c m s
  | .scale c k => Sys2Proof.Machine.execScale c k s
  | .seqrec k => Sys2Proof.Machine.execSeqrec k s
  | .seqplay => Sys2Proof.Machine.execSeqplay s
  | .seqstop => Sys2Proof.Machine.execSeqstop s
  | .tick c => Sys2Proof.Machine.execTick c s

end Sys2Proof.Machine
end

