-- ==== Sys2Proof/Machine/Cycle.lean ====
section
/-! DEFINITION. One clock cycle of the pin-level binding, as events in the fixed order, and runs of events
(spec/30_encoding.md R101, R111, R112; spec/60_exceptions.md R263 to R265; spec/70_reset_and_hazards.md R290, R303;
spec/20_memory.md R78). -/

namespace Sys2Proof.Machine

open Sys2Proof

/-- Go on from a next state; a stop stays. -/
def andThen (o : Host.Outcome State Fault Refusal) (f : State → Host.Outcome State Fault Refusal) :
    Host.Outcome State Fault Refusal :=
  match o with
  | .next s => f s
  | .fault r => .fault r
  | .refused r => .refused r

/-- Execute an event word: a reserved word behaves exactly as NOP (30_encoding.md R112). -/
def execWord (w : EventWord) (s : State) : Host.Outcome State Fault Refusal :=
  match decode w with
  | .ok i => exec i s
  | .error _ => exec .nop s

/-- A pulse on the pin `tick[c]` is the event `TICK c` (30_encoding.md R111). -/
def execPulse (pulse : Bool) (c : Channel) (s : State) : Host.Outcome State Fault Refusal :=
  if pulse then exec (.tick c) s else .next s

/-- The command port: `cmd` is sampled when `cmd_valid = 1` (30_encoding.md R101). -/
def execCommand (cmd : Option EventWord) (s : State) : Host.Outcome State Fault Refusal :=
  match cmd with
  | some w => execWord w s
  | none => .next s

/-- Reset: every element at its reset value; the environment's stream is not the block's to clear
(70_reset_and_hazards.md R290). -/
def resetCycle (s : State) : State := { State.reset with input := s.input }

/-- One cycle: reset discards the rest; else TICK 0, TICK 1, the command (60_exceptions.md R263,
70_reset_and_hazards.md R290). The record ports start the cycle with `ev_valid = 0`. -/
def runCycle (p : Pins) (s : State) : Host.Outcome State Fault Refusal :=
  if p.rst then .next (resetCycle s)
  else
    andThen (andThen (execPulse p.tick0 .one s.clearPorts) (execPulse p.tick1 .two)) (execCommand p.cmd)

/-- The cycle that presents one event word and nothing else. -/
def wordCycle (w : EventWord) : Pins := ⟨false, false, false, some w⟩

/-- A cycle in which the environment presents nothing. -/
def idleCycle : Pins := ⟨false, false, false, none⟩

/-- The next cycle of the environment's stream and what follows it; past its end nothing is presented. -/
def nextCycle (s : State) : Pins × State :=
  match s.input with
  | [] => (idleCycle, s)
  | p :: rest => (p, { s with input := rest })

/-- A run at the transaction level: a list of events, in order (20_memory.md R78). -/
def runEvents : List Instr → State → Host.Outcome State Fault Refusal
  | [], s => .next s
  | i :: is, s => andThen (exec i s) (runEvents is)

/-- The record the event that takes `s` to `t` adds to the emission trace of channel `c`: that of the engine invocation it
runs, if it runs one (10_state.md R48). -/
def emitted (c : Channel) (i : Instr) (s t : State) : List Emission :=
  if i = .tick c ∧ invokes (s.chan c) = true then (t.chan c).port.toList else []

/-- The emission trace of channel `c`: one record per engine invocation (10_state.md R48). -/
def emissionTrace (c : Channel) : List Instr → State → List Emission
  | [], _ => []
  | i :: is, s =>
    match exec i s with
    | .next t => emitted c i s t ++ emissionTrace c is t
    | .fault _ => []
    | .refused _ => []

end Sys2Proof.Machine
end

