-- ==== Sys2Proof/Machine/Step.lean ====
section
/-! DEFINITION. One step of the machine is one clock cycle (spec/70_reset_and_hazards.md R303; log entry 1). -/

namespace Sys2Proof.Machine

open Sys2Proof

/-- One clock cycle: the pins the environment presents next, run in the fixed order. -/
def step (s : State) : Host.Outcome State Fault Refusal :=
  runCycle (nextCycle s).1 (nextCycle s).2

/-- The state with that event word as the next thing the environment presents. -/
def State.withFetchWord (s : State) (nbits w : Nat) : State :=
  { s with input := wordCycle (tableWord nbits w) :: s.input }

end Sys2Proof.Machine
end

