-- ==== Sys2Proof/Machine/Assembler.lean ====
section
/-! DEFINITION. The assembler syntax and the pseudo-events with their expansions (spec/30_encoding.md R114, R115). A
line is a list of characters; it assembles to the events it stands for, or it is an assembly error (`none`). -/

namespace Sys2Proof.Machine

open Sys2Proof

/-- The mnemonics and pseudo-events (R114, R115). -/
inductive Mnemonic where
  | nop
  | step
  | attrcyc
  | attrinc
  | attrdec
  | dir
  | scale
  | seqrec
  | seqplay
  | seqstop
  | tick
  | hold
  | release
  | mask
  | ticks
  | attrsel
  deriving DecidableEq, Repr

/-- The spellings, in upper case (R114, R115). -/
def spellings : List (String × Mnemonic) :=
  [("NOP", .nop), ("STEP", .step), ("ATTRCYC", .attrcyc), ("ATTRINC", .attrinc), ("ATTRDEC", .attrdec), ("DIR", .dir),
    ("SCALE", .scale)] ++
  [("SEQREC", .seqrec), ("SEQPLAY", .seqplay), ("SEQSTOP", .seqstop), ("TICK", .tick), ("HOLD", .hold),
    ("RELEASE", .release), ("MASK", .mask), ("TICKS", .ticks), ("ATTRSEL", .attrsel)]

def readMnemonic (t : List Char) : Option Mnemonic := (spellings.find? (fun p => p.1.toList == t)).map (·.2)

/-- The value of a digit in a base. -/
def digitValue (base : Nat) (ch : Char) : Option Nat :=
  let n := ch.toNat
  let v := if 48 ≤ n ∧ n ≤ 57 then n - 48 else if 65 ≤ n ∧ n ≤ 70 then n - 55 else if 97 ≤ n ∧ n ≤ 102 then n - 87 else base
  if v < base then some v else none

/-- The value of a non-empty string of digits. -/
def digitsValue (base : Nat) : List Char → Option Nat
  | [] => none
  | ds => ds.foldl (fun acc ch => do some ((← acc) * base + (← digitValue base ch))) (some 0)

/-- A number: decimal, hexadecimal with `0x`, or binary with `0b` (R114). -/
def readNumber : List Char → Option Nat
  | '0' :: 'x' :: ds => digitsValue 16 ds
  | '0' :: 'b' :: ds => digitsValue 2 ds
  | ds => digitsValue 10 ds

/-- A channel operand, `1` or `2` (R102, R114). -/
def readChannel (t : List Char) : Option Channel :=
  match readNumber t with
  | some 1 => some .one
  | some 2 => some .two
  | _ => none

/-- A number below a bound; an operand out of range is an assembly error (R114). -/
def readBelow (bound : Nat) (t : List Char) : Option (Fin bound) := do
  let n ← readNumber t
  if h : n < bound then some ⟨n, h⟩ else none

/-- A held operand: `1` or `0`, `ON` or `OFF` (R114). -/
def readHeld (t : List Char) : Option Bool :=
  if t = "ON".toList then some true
  else if t = "OFF".toList then some false
  else (readBelow 2 t).map (fun h => decide (h = 1))

/-- A direction operand: its code or its name (R114). -/
def readMode (t : List Char) : Option DirMode :=
  if t = "UP".toList then some .up
  else if t = "DOWN".toList then some .down
  else if t = "UPDOWN".toList then some .upDown
  else if t = "DOWNUP".toList then some .downUp
  else (readBelow 4 t).map (fun m => .ofCode (BitVec.ofNat 2 m.val))

/-- An attribute operand of `ATTRSEL` (R115). -/
def readAttr (t : List Char) : Option Attr :=
  if t = "STEPCOUNT".toList then some .stepCount
  else if t = "RATE".toList then some .rate
  else if t = "OCTAVE".toList then some .octave
  else none

/-- `MASK <ch>, <m>`: eight STEPs, degree 0 first (R115). -/
def maskEvents (c : Channel) (m : Mask) : List Instr := degrees.map (fun d => .step c d (held m d))

/-- `ATTRSEL <ch>, <a>` where the present attribute is known: as many ATTRCYC as take it there (R115). -/
def attrSelectEvents (c : Channel) (now a : Attr) : List Instr :=
  List.replicate (((attrCode a).toNat + 3 - (attrCode now).toNat) % 3) (.attrcyc c)

/-- A mnemonic and its operands (R114, R115). `known` is what is known of the attribute under edit of each channel at this
line: `ATTRSEL` is usable only where it is known. -/
def assembleOperands (known : Channel → Option Attr) (m : Mnemonic) (ops : List (List Char)) : Option (List Instr) :=
  match m, ops with
  | .nop, [] => some [.nop]
  | .step, [c, d, h] => do some [.step (← readChannel c) (← readBelow 8 d) (← readHeld h)]
  | .attrcyc, [c] => do some [.attrcyc (← readChannel c)]
  | .attrinc, [c] => do some [.attrinc (← readChannel c)]
  | .attrdec, [c] => do some [.attrdec (← readChannel c)]
  | .dir, [c, m] => do some [.dir (← readChannel c) (← readMode m)]
  | .scale, [c, k] => do some [.scale (← readChannel c) (BitVec.ofNat 3 (← readBelow 7 k).val)]
  | .seqrec, [k] => do some [.seqrec (← readBelow 4 k)]
  | .seqplay, [] => some [.seqplay]
  | .seqstop, [] => some [.seqstop]
  | .tick, [c] => do some [.tick (← readChannel c)]
  | .hold, [c, d] => do some [.step (← readChannel c) (← readBelow 8 d) true]
  | .release, [c, d] => do some [.step (← readChannel c) (← readBelow 8 d) false]
  | .mask, [c, m] => do some (maskEvents (← readChannel c) (BitVec.ofNat 8 (← readBelow 256 m).val))
  | .ticks, [c, n] => do some (List.replicate (← readNumber n) (.tick (← readChannel c)))
  | .attrsel, [c, a] => do some (attrSelectEvents (← readChannel c) (← known (← readChannel c)) (← readAttr a))
  | _, _ => none

/-- White space between the parts of a line. -/
def blankChar (ch : Char) : Bool := ch == ' ' || ch == '\t' || ch == '\r'

/-- The text without the white space at its two ends. -/
def trimBlank (t : List Char) : List Char := ((t.dropWhile blankChar).reverse.dropWhile blankChar).reverse

/-- The parts between commas. -/
def splitCommas : List Char → List (List Char)
  | [] => [[]]
  | ',' :: t => [] :: splitCommas t
  | ch :: t =>
    match splitCommas t with
    | [] => [[ch]]
    | p :: ps => (ch :: p) :: ps

/-- The operands of a line: none, or the trimmed parts between commas (R114). -/
def operandTexts (t : List Char) : List (List Char) :=
  match trimBlank t with
  | [] => []
  | t => (splitCommas t).map trimBlank

/-- One line: a mnemonic, its operands, a comment from `;` on; a blank line stands for no event (R114). -/
def assembleLine (known : Channel → Option Attr) (line : List Char) : Option (List Instr) :=
  match trimBlank (line.takeWhile (fun ch => ch != ';')) with
  | [] => some []
  | t => do
    let m ← readMnemonic (t.takeWhile (fun ch => !blankChar ch))
    assembleOperands known m (operandTexts (t.dropWhile (fun ch => !blankChar ch)))

/-- The event words of a line (R114). -/
def assembleWords (known : Channel → Option Attr) (line : List Char) : Option (List EventWord) :=
  (assembleLine known line).map (List.map encode)

end Sys2Proof.Machine
end

