-- ==== Sys2Proof/Safety.lean ====
section
/-! DEFINITION. What holds of the machine at every moment, in the terms the claims use: the bounds of reachable states
(spec/10_state.md R51), the inductive invariant behind them, reachability, and agreement of two states on one channel
(spec/20_memory.md R82, spec/60_exceptions.md R270). -/

namespace Sys2Proof.Machine

open Sys2Proof

/-- Dark, or one bar lit (10_state.md R44). -/
abbrev DarkOrOneHot (b : BitVec 8) : Prop := b = 0x00#8 ∨ ∃ k : Degree, b = onehot k

/-- The bounds of 10_state.md R22 to R25 on ChannelControl. -/
abbrev Control.Bounded (ctl : Control) : Prop :=
  1 ≤ ctl.rate ∧ ctl.rate ≤ 9 ∧ 1 ≤ ctl.stepCount ∧ ctl.stepCount ≤ 9 ∧ ctl.octave ≤ 8 ∧ ctl.stepCount + ctl.octave ≤ 9

/-- The list of 10_state.md R51 for one channel; what it says of `attribute`, `scaleMode` and `cursor` their types
say. -/
abbrev ChannelState.Bounded (x : ChannelState) : Prop :=
  x.ctl.Bounded ∧ x.eng.run ≤ 9 ∧ 1 ≤ x.sch.noteDur ∧ x.sch.noteDur ≤ 9 ∧ x.sch.beat ≤ 8 ∧
    DarkOrOneHot x.stage.bargraph ∧ ¬(x.eng.chopTop = true ∧ x.eng.chopBottom = true)

/-- R51 for both channels. -/
abbrev State.Bounded (s : State) : Prop := s.ch1.Bounded ∧ s.ch2.Bounded

/-- A chop flag is pending only right after the flip that set it: the cursor on scan index 7 and the phase already the
new one. -/
abbrev EngineState.ChopPlaced (e : EngineState) : Prop :=
  (e.chopTop = true → e.phase = .desc ∧ e.cursor = some 7) ∧ (e.chopBottom = true → e.phase = .asc ∧ e.cursor = some 7)

/-- The inductive invariant of one channel. -/
abbrev ChannelState.Inv (x : ChannelState) : Prop := x.Bounded ∧ x.eng.ChopPlaced

/-- The inductive invariant of the machine. -/
abbrev State.Inv (s : State) : Prop := s.ch1.Inv ∧ s.ch2.Inv

/-- The state right after reset with an environment that will present the given cycles. -/
def resetWith (input : List Pins) : State := { State.reset with input := input }

/-- The states some run from reset reaches, whatever the environment presents. -/
inductive Reachable : State → Prop where
  | reset (input : List Pins) : Reachable (resetWith input)
  | step {s t : State} (hs : Reachable s) (h : Sys2Proof.Machine.step s = .next t) : Reachable t

/-- The recorder belongs to channel 2 (00_scope.md R2). -/
def State.recorderOf (s : State) : Channel → Option Recorder
  | .one => none
  | .two => some s.recorder

/-- Two states hold the same in all that an event of channel `c` may read or write. -/
def AgreeOn (c : Channel) (s t : State) : Prop := s.chan c = t.chan c ∧ s.recorderOf c = t.recorderOf c

/-- All but channel `c`'s own state is as it was: the other channel, the recorder, the environment's stream. -/
def SameOutside (c : Channel) (s t : State) : Prop :=
  t.chan c.other = s.chan c.other ∧ t.recorder = s.recorder ∧ t.input = s.input

/-- The phase a mode starts in; Up and Down have only one (41_engine.md R152). -/
def startPhase : DirMode → Direction
  | .up => .asc
  | .down => .desc
  | .upDown => .asc
  | .downUp => .desc

/-- The engine state after `n` invocations over an unchanged mask and ChannelControl. -/
def engineAfter (split : Fin 9) (m : Mask) (ctl : Control) (e : EngineState) : Nat → EngineState
  | 0 => e
  | n + 1 => (engine split m ctl (engineAfter split m ctl e n)).1

/-- The output of the invocation that follows `n` others (counted from 0). -/
def engineOutput (split : Fin 9) (m : Mask) (ctl : Control) (e : EngineState) (n : Nat) : EngineOut :=
  (engine split m ctl (engineAfter split m ctl e n)).2.out

/-- The events of a cycle without reset, in the order of 60_exceptions.md R263; a reserved word is a NOP. -/
def cycleEvents (p : Pins) : List Instr :=
  (if p.tick0 then [.tick .one] else []) ++ (if p.tick1 then [.tick .two] else []) ++
    (match p.cmd with
      | none => []
      | some w => [((decode w).toOption).getD .nop])

end Sys2Proof.Machine
end

