-- ==== Sys2Proof/Certificates/Slice0/Obligations.lean ====
section
/-! DEFINITION. The statements for the provers. The spec is a set of numbered rules; a docstring names the rule a
statement formalises and, where the rule is the spec's own decision D<n> or derivation, says so. -/

open Sys2Proof Sys2Proof.Machine

/-! ## Reset -/

/-- R60 (its values are ARP's for `rate`, `stepCount`, `octave` and the spec's decision D8 for the rest): every element
of both channels and of the recorder after reset. -/
def Obligations.ResetHoldsTheTableOfValues : Prop :=
  (∀ c : Channel,
    (State.reset.chan c).mask = 0x00#8 ∧ (State.reset.chan c).ctl.rate = 1 ∧ (State.reset.chan c).ctl.stepCount = 2 ∧
    (State.reset.chan c).ctl.octave = (match c with | .one => 3 | .two => 5) ∧
    (State.reset.chan c).ctl.dir.code = 0#2 ∧ attrCode (State.reset.chan c).ctl.attr = 0#2 ∧
    scaleCode (State.reset.chan c).ctl.scaleMode = 0#3 ∧ cursorCode (State.reset.chan c).eng.cursor = 0b1111#4 ∧
    (State.reset.chan c).eng.run = 0 ∧ directionCode (State.reset.chan c).eng.phase = 0#1 ∧
    (State.reset.chan c).eng.chopTop = false ∧ (State.reset.chan c).eng.chopBottom = false ∧
    (State.reset.chan c).eng.octaveWrap = false ∧ (State.reset.chan c).eng.snt = false ∧
    (State.reset.chan c).sch.beat = 0 ∧ (State.reset.chan c).sch.noteDur = 1 ∧ (State.reset.chan c).sch.scanPos = 0#8 ∧
    (State.reset.chan c).stage.gate = false ∧ (State.reset.chan c).stage.restActive = true ∧
    (State.reset.chan c).stage.period = 0 ∧ (State.reset.chan c).stage.bargraph = 0x00#8) ∧
  (∀ k : Fin 4, State.reset.recorder.seq[k] = 0x00#8) ∧ State.reset.recorder.seqCursor = 0 ∧
  State.reset.recorder.play = false

/-- Derived (R290, with the model's choices of log entries 1 and 2): a cycle with `rst = 1` puts every element at its
reset value, whatever else the cycle presents. That the environment's remaining stream is kept is log entry 1's, and
that no record is presented is log entry 2's. -/
def Obligations.ResetCycleDiscardsTicksAndCommand : Prop :=
  ∀ (s : State) (tick0 tick1 : Bool) (cmd : Option EventWord) (rest : List Pins),
    s.input = ⟨true, tick0, tick1, cmd⟩ :: rest → step s = .next { State.reset with input := rest }

/-! ## Words -/

/-- Derived from R104 to R113: decoding an encoded well-formed instruction gives it back, every operand at every value. -/
def Obligations.DecodeOfEncodeIsTheInstruction : Prop :=
  ∀ i : Instr, i.wellFormed = true → decode (encode i) = .ok i

/-- Derived (R113): every legal word has exactly one meaning, and the encoder gives that word. -/
def Obligations.LegalWordsAreTheEncodedInstructions : Prop :=
  ∀ (w : EventWord) (i : Instr), decode w = .ok i → i.wellFormed = true ∧ encode i = w

/-- Words of spec/95_test_vectors.md V14, one or more per row of the opcode table. -/
def Obligations.SampleWordsDecodeAsTheSpecSays : Prop :=
  decode 0x00#8 = .ok .nop ∧ decode 0x23#8 = .ok (.step .one 3 false) ∧ decode 0x3F#8 = .ok (.step .two 7 true) ∧
  decode 0x50#8 = .ok (.attrcyc .two) ∧ decode 0x42#8 = .ok (.attrdec .one) ∧ decode 0x53#8 = .ok (.attrinc .two) ∧
  decode 0x62#8 = .ok (.dir .one .upDown) ∧ decode 0x96#8 = .ok (.scale .two 6#3) ∧ decode 0xB2#8 = .ok (.seqrec 2) ∧
  decode 0xB4#8 = .ok .seqplay ∧ decode 0xB8#8 = .ok .seqstop ∧ decode 0xD0#8 = .ok (.tick .two)

/-- R112 (decision D5): the legal words, in the order of their numbers, are the 69 events listed; the reserved words are
the 187 in the ranges listed, and each behaves exactly as NOP: no state changes. -/
def Obligations.ReservedWordsAreIgnored : Prop :=
  ((List.range 256).filterMap (fun w => (decode (BitVec.ofNat 8 w)).toOption) =
    [Instr.nop] ++
    [Channel.one, .two].flatMap (fun c => [false, true].flatMap (fun h => degrees.map (fun d => Instr.step c d h))) ++
    [Channel.one, .two].flatMap (fun c => [Instr.attrcyc c, .attrdec c, .attrinc c]) ++
    [Channel.one, .two].flatMap (fun c => [DirMode.up, .down, .upDown, .downUp].map (Instr.dir c)) ++
    [Channel.one, .two].flatMap (fun c => [0#3, 1#3, 2#3, 3#3, 4#3, 5#3, 6#3].map (Instr.scale c)) ++
    [0, 1, 2, 3].map Instr.seqrec ++ [Instr.seqplay, .seqstop] ++ [Instr.tick .one, .tick .two]) ∧
  (∀ w : EventWord, (decode w).toOption = none ↔
    [(0x01, 0x1F), (0x41, 0x41), (0x44, 0x4F), (0x51, 0x51), (0x54, 0x5F), (0x64, 0x6F), (0x74, 0x7F), (0x87, 0x8F),
      (0x97, 0x9F), (0xA0, 0xAF), (0xB5, 0xB7), (0xB9, 0xBB), (0xBC, 0xBF), (0xC1, 0xCF), (0xD1, 0xDF), (0xE0, 0xFF)].any
      (fun (r : Nat × Nat) => decide (r.1 ≤ w.toNat ∧ w.toNat ≤ r.2)) = true) ∧
  ((List.range 256).countP (fun w => (decode (BitVec.ofNat 8 w)).toOption.isNone) = 187) ∧
  ∀ (w : EventWord) (s : State), (decode w).toOption = none → execWord w s = .next s

/-! ## Cycles and steps -/

/-- Derived (R111, R112, R303 and log entry 1): a step whose cycle presents one legal event word is `exec` of the
decoded instruction; around it the step takes the cycle off the stream and starts with `ev_valid = 0`. -/
def Obligations.StepRunsTheDecodedWord : Prop :=
  (∀ (s : State) (w : EventWord) (i : Instr) (rest : List Pins),
    s.input = wordCycle w :: rest → decode w = .ok i → step s = exec i { s with input := rest }.clearPorts) ∧
  (∀ (s : State) (w : Nat) (i : Instr), decodeTableWord 8 w = some i → step (s.withFetchWord 8 w) = exec i s.clearPorts)

/-- Derived (R263, decision D3; R112, R303; log entries 1 and 2): the events of one cycle run one after another, TICK 0,
TICK 1, the command. That the cycle comes off a stream is the model's choice of log entry 1, and that both record ports
start it with `ev_valid = 0` is how log entry 2 holds the record. -/
def Obligations.CycleRunsItsEventsInOrder : Prop :=
  ∀ (s : State) (tick0 tick1 : Bool) (cmd : Option EventWord) (rest : List Pins),
    s.input = ⟨false, tick0, tick1, cmd⟩ :: rest →
      step s = runEvents (cycleEvents ⟨false, tick0, tick1, cmd⟩) { s with input := rest }.clearPorts

/-- The model's choice (log entry 1): past the end of the environment's stream a cycle presents nothing, and only
`ev_valid` falls. -/
def Obligations.EmptyStreamIdles : Prop :=
  ∀ s : State, s.input = [] → step s = .next s.clearPorts

/-- R260: no event fails, stalls or is refused, in any state; nor does any cycle. -/
def Obligations.NothingStops : Prop :=
  (∀ (i : Instr) (s : State), ∃ t, exec i s = .next t) ∧ ∀ s : State, ∃ t, step s = .next t

/-! ## Control events -/

/-- R200. -/
def Obligations.NopChangesNothing : Prop := ∀ s : State, exec .nop s = .next s

/-- R201 (decision D33): STEP sets one bit of one mask to the level given. -/
def Obligations.StepWritesOneMaskBit : Prop :=
  ∀ (c : Channel) (d : Degree) (h : Bool) (s : State), ∃ t, exec (.step c d h) s = .next t ∧
    (∀ i : Degree, held (t.chan c).mask i = if i = d then h else held (s.chan c).mask i) ∧
    t.chan c = { s.chan c with mask := (t.chan c).mask } ∧ SameOutside c s t

/-- R202 (decision D9): ATTRCYC adds 1 modulo 3 to the attribute under edit. -/
def Obligations.AttrCycleStepsTheAttribute : Prop :=
  ∀ (c : Channel) (s : State), ∃ t, exec (.attrcyc c) s = .next t ∧
    (attrCode (t.chan c).ctl.attr).toNat = ((attrCode (s.chan c).ctl.attr).toNat + 1) % 3 ∧
    t.chan c = { s.chan c with ctl := { (s.chan c).ctl with attr := (t.chan c).ctl.attr } } ∧ SameOutside c s t

/-- R203: ATTRINC raises the field under edit by one up to its ceiling, `9 - k` for the joint clamps (R208). -/
def Obligations.AttrIncrementStopsAtItsCeiling : Prop :=
  ∀ (c : Channel) (s : State), ∃ t, exec (.attrinc c) s = .next t ∧ SameOutside c s t ∧
    t.chan c = { s.chan c with ctl := (t.chan c).ctl } ∧
    (t.chan c).ctl =
      match (s.chan c).ctl.attr with
      | .stepCount =>
        { (s.chan c).ctl with stepCount := min ((s.chan c).ctl.stepCount + 1) (9 - (s.chan c).ctl.octave) }
      | .rate => { (s.chan c).ctl with rate := min ((s.chan c).ctl.rate + 1) 9 }
      | .octave =>
        { (s.chan c).ctl with octave := min ((s.chan c).ctl.octave + 1) (9 - (s.chan c).ctl.stepCount) }

/-- R204: ATTRDEC lowers the field under edit by one down to its floor. -/
def Obligations.AttrDecrementStopsAtItsFloor : Prop :=
  ∀ (c : Channel) (s : State), ∃ t, exec (.attrdec c) s = .next t ∧ SameOutside c s t ∧
    t.chan c = { s.chan c with ctl := (t.chan c).ctl } ∧
    (t.chan c).ctl =
      match (s.chan c).ctl.attr with
      | .stepCount => { (s.chan c).ctl with stepCount := max ((s.chan c).ctl.stepCount - 1) 1 }
      | .rate => { (s.chan c).ctl with rate := max ((s.chan c).ctl.rate - 1) 1 }
      | .octave => { (s.chan c).ctl with octave := (s.chan c).ctl.octave - 1 }

/-- R205: DIR writes the mode and nothing else; the engine's pointers and flags stay. -/
def Obligations.DirWritesTheModeOnly : Prop :=
  ∀ (c : Channel) (m : DirMode) (s : State), ∃ t, exec (.dir c m) s = .next t ∧
    t.chan c = { s.chan c with ctl := { (s.chan c).ctl with dir := m } } ∧ SameOutside c s t

/-- R206: SCALE with an index in 0..6 writes the scale mode and nothing else; the index 7, a reserved word, changes
nothing (R112). -/
def Obligations.ScaleSelectsTheRow : Prop :=
  ∀ (c : Channel) (k : BitVec 3) (s : State), ∃ t, exec (.scale c k) s = .next t ∧ SameOutside c s t ∧
    t.chan c = { s.chan c with ctl := { (s.chan c).ctl with scaleMode := (t.chan c).ctl.scaleMode } } ∧
    (if k = 7#3 then (t.chan c).ctl.scaleMode = (s.chan c).ctl.scaleMode
      else scaleCode (t.chan c).ctl.scaleMode = k)

/-- Derived (R25, R207; ARP property 1): no event takes the sum `stepCount + octave` of a channel above 9. The premise
`1 ≤ stepCount` (R23) is part of the invariant every step keeps, and is kept here too. -/
def Obligations.SumOfStepCountAndOctaveStaysBelowTen : Prop :=
  ∀ (i : Instr) (c : Channel) (s : State), 1 ≤ (s.chan c).ctl.stepCount →
    (s.chan c).ctl.stepCount + (s.chan c).ctl.octave ≤ 9 →
    ∃ t, exec i s = .next t ∧ 1 ≤ (t.chan c).ctl.stepCount ∧ (t.chan c).ctl.stepCount + (t.chan c).ctl.octave ≤ 9

/-! ## The Sequence Recorder -/

/-- R240 (decision D30): SEQREC copies the live mask of channel 2 into one slot, playing or not. -/
def Obligations.SeqRecordCopiesTheLiveMask : Prop :=
  ∀ (k : Fin 4) (s : State), ∃ t, exec (.seqrec k) s = .next t ∧
    (∀ j : Fin 4, t.recorder.seq[j] = if j = k then s.ch2.mask else s.recorder.seq[j]) ∧
    t = { s with recorder := { s.recorder with seq := t.recorder.seq } }

/-- R241: SEQPLAY sets the play flag and takes the playback cursor to slot 0. -/
def Obligations.SeqPlayStartsAtSlotZero : Prop :=
  ∀ s : State, exec .seqplay s = .next { s with recorder := { s.recorder with play := true, seqCursor := 0 } }

/-- R242 (decision D30): SEQSTOP stops playback and forces a Rest on the output stage of channel 2; beat, gate, period,
scanPos and the EngineState stay. -/
def Obligations.SeqStopForcesARest : Prop :=
  ∀ s : State, ∃ t, exec .seqstop s = .next t ∧ t.ch1 = s.ch1 ∧ t.input = s.input ∧
    t.recorder = { s.recorder with play := false, seqCursor := 0 } ∧
    t.ch2 =
      { s.ch2 with
        stage := { s.ch2.stage with restActive := true, bargraph := 0x00#8 }
        sch := { s.ch2.sch with noteDur := s.ch2.ctl.rate } }

/-- R243: the mask the engine sees. -/
def Obligations.PlaybackSubstitutesTheSlot : Prop :=
  ∀ s : State, effMask .one s = s.ch1.mask ∧
    (s.recorder.play = true → effMask .two s = s.recorder.seq[s.recorder.seqCursor]) ∧
    (s.recorder.play = false → effMask .two s = s.ch2.mask)

/-- Derived (R246): where no phrase can complete, a TICK of channel 2 leaves the recorder as it is: Up or Down mode, an
all-zero effective mask, or `stepCount = 1` with at most two degrees held. -/
def Obligations.PlaybackStaysWithoutAPhrase : Prop :=
  ∀ s : State,
    (bidirectional s.ch2.ctl.dir = false ∨ effMask .two s = 0 ∨
      (s.ch2.ctl.stepCount = 1 ∧ popcount (effMask .two s) ≤ 2)) →
    ∃ t, exec (.tick .two) s = .next t ∧ t.recorder = s.recorder

/-! ## TICK -/

/-- Derived (R220 with decision D27, R222 with decisions D17 and D28, R244). A TICK below the note duration counts the
beat, toggles the gate unless a Rest is in effect, adds no record to the emission trace and does nothing else. A TICK
that reaches the note duration toggles the gate in the same way, restarts the beat, counts the scan position, runs the
engine once, takes its output, presents its record, and on channel 2 advances the playback cursor on phrase complete.
That State holds the record (`port`) is log entry 2 (DESIGN CHOICE). That a TICK below the note duration leaves `port` as
it was, where R220 writes `ev_valid[c] = 0`, is log entry 8 (DEDUCED). -/
def Obligations.TickRunsItsSteps : Prop :=
  (∀ (c : Channel) (s : State), (s.chan c).sch.beat + 1 < (s.chan c).sch.noteDur →
    ∃ t, exec (.tick c) s = .next t ∧ SameOutside c s t ∧
      t.chan c =
        { s.chan c with
          stage :=
            { (s.chan c).stage with
              gate := if (s.chan c).stage.restActive then (s.chan c).stage.gate else !(s.chan c).stage.gate }
          sch := { (s.chan c).sch with beat := (s.chan c).sch.beat + 1 } } ∧
      emissionTrace c [.tick c] s = []) ∧
  ∀ (c : Channel) (s : State), (s.chan c).sch.noteDur ≤ (s.chan c).sch.beat + 1 →
    ∃ t, exec (.tick c) s = .next t ∧ t.chan c.other = s.chan c.other ∧ t.input = s.input ∧
      (t.chan c).mask = (s.chan c).mask ∧ (t.chan c).ctl = (s.chan c).ctl ∧
      (t.chan c).sch.beat = 0 ∧ (t.chan c).sch.scanPos = (s.chan c).sch.scanPos + 1 ∧
      (t.chan c).stage.gate = (if (s.chan c).stage.restActive then (s.chan c).stage.gate else !(s.chan c).stage.gate) ∧
      (let r := engine (Config.split c) (effMask c s) (s.chan c).ctl (s.chan c).eng
       (t.chan c).eng = r.1 ∧ (t.chan c).port = some r.2 ∧ emissionTrace c [.tick c] s = [r.2] ∧
       (match r.2.out with
        | .note p a o dur deg =>
          (t.chan c).stage.period = pitchRom Config.periodTable p a o ∧ (t.chan c).stage.restActive = false ∧
          (t.chan c).sch.noteDur = dur ∧ (t.chan c).stage.bargraph = 1#8 <<< deg.val
        | .rest dur =>
          (t.chan c).stage.period = (s.chan c).stage.period ∧ (t.chan c).stage.restActive = true ∧
          (t.chan c).sch.noteDur = dur ∧ (t.chan c).stage.bargraph = 0x00#8
        | .none =>
          (t.chan c).stage.period = (s.chan c).stage.period ∧
          (t.chan c).stage.restActive = (s.chan c).stage.restActive ∧
          (t.chan c).sch.noteDur = (s.chan c).sch.noteDur ∧ (t.chan c).stage.bargraph = (s.chan c).stage.bargraph) ∧
       t.recorder =
        (if c = .two ∧ s.recorder.play = true ∧ r.2.phrase = true then
          { s.recorder with seqCursor := s.recorder.seqCursor + 1 }
         else s.recorder))

/-- Derived (R221): from a fresh note of duration `n`, `n - 1` TICKs leave the engine alone and the `n`-th invokes it
exactly once. -/
def Obligations.NoteLastsExactlyItsDuration : Prop :=
  ∀ (c : Channel) (s : State), (s.chan c).sch.beat = 0 → 1 ≤ (s.chan c).sch.noteDur →
    (∀ k, k < (s.chan c).sch.noteDur → ∃ t, runEvents (List.replicate k (.tick c)) s = .next t ∧
      (t.chan c).sch.beat = k ∧ (t.chan c).sch.noteDur = (s.chan c).sch.noteDur ∧ (t.chan c).eng = (s.chan c).eng ∧
      (t.chan c).stage.period = (s.chan c).stage.period ∧ emissionTrace c (List.replicate k (.tick c)) s = []) ∧
    ∃ t, runEvents (List.replicate (s.chan c).sch.noteDur (.tick c)) s = .next t ∧ (t.chan c).sch.beat = 0 ∧
      (emissionTrace c (List.replicate (s.chan c).sch.noteDur (.tick c)) s).length = 1

/-- Derived (R224, decision D36): right after the TICK that wrote it, the lit bar is the bar of a held degree. Held in
`effMask c s`, the mask that the invocation read: R224 does not say which mask it means where a TICK of channel 2 also
advances `seqCursor`, and this is the model's reading (log entry 14, DEDUCED). -/
def Obligations.BarGraphShowsAHeldDegree : Prop :=
  ∀ (c : Channel) (s : State), (s.chan c).sch.noteDur ≤ (s.chan c).sch.beat + 1 →
    ∃ (t : State) (r : Emission), exec (.tick c) s = .next t ∧ (t.chan c).port = some r ∧
      (r.out ≠ .none → (t.chan c).stage.bargraph &&& effMask c s = (t.chan c).stage.bargraph) ∧
      (∀ p a o dur deg, r.out = .note p a o dur deg → held (effMask c s) deg = true ∧
        ∀ i : Degree, held (t.chan c).stage.bargraph i = decide (i = deg))

/-- R226: a TICK writes neither the mask, ChannelControl nor `seq`, and nothing of the other channel; and what the
command port will present makes no difference to it. -/
def Obligations.TickLeavesControlAndOtherChannel : Prop :=
  ∀ (c : Channel) (s : State), ∃ t, exec (.tick c) s = .next t ∧
    (t.chan c).mask = (s.chan c).mask ∧ (t.chan c).ctl = (s.chan c).ctl ∧ t.chan c.other = s.chan c.other ∧
    t.recorder.seq = s.recorder.seq ∧ t.recorder.play = s.recorder.play ∧
    (c = .one → t.recorder = s.recorder) ∧ t.input = s.input ∧
    ∀ input : List Pins, exec (.tick c) { s with input := input } = .next { t with input := input }

/-- Derived (R29, R270): every event but TICK leaves EngineState, beat, scanPos, gate and period, and the records
presented, of both channels; and all but SEQSTOP leave the whole scheduler and output stage. -/
def Obligations.CommandsLeaveTheEngine : Prop :=
  ∀ (i : Instr) (s : State), (∀ c, i ≠ .tick c) → ∃ t, exec i s = .next t ∧ ∀ c : Channel,
    (t.chan c).eng = (s.chan c).eng ∧ (t.chan c).sch.beat = (s.chan c).sch.beat ∧
    (t.chan c).sch.scanPos = (s.chan c).sch.scanPos ∧ (t.chan c).stage.gate = (s.chan c).stage.gate ∧
    (t.chan c).stage.period = (s.chan c).stage.period ∧ (t.chan c).port = (s.chan c).port ∧
    (i ≠ .seqstop → (t.chan c).sch = (s.chan c).sch ∧ (t.chan c).stage = (s.chan c).stage)

/-! ## The tables -/

/-- R131 (decision D10): the scale-degree ROM in both directions, all entries natural. -/
def Obligations.ScaleRomHoldsTheRotatedRows : Prop :=
  ∀ (k : ScaleMode) (i : Degree),
    some (scaleRom k .asc i) =
      ([.C, .D, .E, .F, .G, .A, .B] : List PitchClass)[(i.val + (scaleCode k).toNat) % 7]?.map (fun p => (p, .natural)) ∧
    scaleRom k .desc i = scaleRom k .asc ⟨7 - i.val, by omega⟩

/-- R133, R134: the pitch ROM reads `PERIOD_TABLE`, and a flat of C or F reads the natural's period; for every
table. -/
def Obligations.FlatsOfCAndFReadTheNatural : Prop :=
  ∀ (table : PeriodTable) (o : Octave),
    (∀ a, pitchRom table .C a o = table .C .natural o) ∧ (∀ a, pitchRom table .F a o = table .F .natural o) ∧
    ∀ p a, p ≠ .C → p ≠ .F → pitchRom table p a o = table p a o

/-- Derived (R7 `rev8`; ARP property 3): reversal moves bit `7 - i` to bit `i`, twice is the identity. -/
def Obligations.MirrorIsAnExactReversal : Prop :=
  ∀ m : Mask, (∀ i : Nat, i < 8 → (rev8 m).getLsbD i = m.getLsbD (7 - i)) ∧ rev8 (rev8 m) = m

/-! ## The engine -/

/-- R151: an invocation over an all-zero mask. -/
def Obligations.EmptyMaskRestsAndIdles : Prop :=
  ∀ (split : Fin 9) (ctl : Control) (e : EngineState),
    engine split 0x00#8 ctl e =
      ({ cursor := none, run := 0, phase := e.phase, chopTop := false, chopBottom := false, octaveWrap := false,
         snt := false }, ⟨.rest ctl.rate, false⟩)

/-- R152 (decisions D20, D21): the direction of an invocation, its case, the chop flags outside composition, and that
nothing else of the EngineState is written. -/
def Obligations.SelectionOfDirectionAndCase : Prop :=
  ∀ (m : Mask) (ctl : Control) (e : EngineState),
    (ctl.dir = .up → (select m ctl e).phase = .asc) ∧ (ctl.dir = .down → (select m ctl e).phase = .desc) ∧
    (ctl.dir = .upDown → (select m ctl e).phase = if e.cursor = none then .asc else e.phase) ∧
    (ctl.dir = .downUp → (select m ctl e).phase = if e.cursor = none then .desc else e.phase) ∧
    (isSingle m ctl = true ↔ popcount m = 1 ∧ ctl.stepCount = 1) ∧
    (isAlt m ctl = true ↔ (ctl.dir = .upDown ∨ ctl.dir = .downUp) ∧ ctl.stepCount = 1 ∧ popcount m ≤ 2) ∧
    (isCompose m ctl = true ↔ (ctl.dir = .upDown ∨ ctl.dir = .downUp) ∧ isAlt m ctl = false) ∧
    (isCompose m ctl = false → (select m ctl e).chopTop = false ∧ (select m ctl e).chopBottom = false) ∧
    (isCompose m ctl = true → (select m ctl e).chopTop = e.chopTop ∧ (select m ctl e).chopBottom = e.chopBottom) ∧
    ∃ d top bottom, select m ctl e = { e with phase := d, chopTop := top, chopBottom := bottom }

/-- R154 (decisions D14, D25): `run` at the start of a scan, its range, and the offset's. -/
def Obligations.NormalisedRunIsInRange : Prop :=
  ∀ (S run : Nat), 1 ≤ S →
    normaliseRun S .asc run = (if run ≥ S then 0 else run) ∧ normaliseRun S .asc run < S ∧
    normaliseRun S .desc run = (if run = 0 ∨ run > S then S else run) ∧
    1 ≤ normaliseRun S .desc run ∧ normaliseRun S .desc run ≤ S ∧
    ∀ d, offset d (normaliseRun S d run) ≤ S - 1

/-- R158 (decisions D12, D14, D18): the octave of a stop and when it is invalid. -/
def Obligations.StopOctaveAndValidity : Prop :=
  ∀ (split : Fin 9) (ctl : Control) (d : Direction) (run : Nat) (i : Degree),
    offset d run = (match d with | .asc => run | .desc => run - 1) ∧
    ((validOctave split ctl (offset d run) i = none) ↔
      (i = 7 ∧ ctl.octave + offset d run = 8) ∨
        8 < ctl.octave + offset d run + (if i.val < split.val then 1 else 0)) ∧
    ∀ o, validOctave split ctl (offset d run) i = some o →
      o.val = ctl.octave + offset d run + (if i.val < split.val then 1 else 0)

/-- R160 (decisions D15, D25; the phrase signal it raises is decision D26): the end of a pass. -/
def Obligations.PassEndCountsOnePass : Prop :=
  ∀ (ctl : Control) (compose : Bool) (e : EngineState) (i : Degree) (phr : Bool),
    passEnd ctl compose ⟨e, .asc, i, phr⟩ =
      (if e.run + 1 ≥ ctl.stepCount then
        (if compose = true then
          ⟨{ e with run := ctl.stepCount, chopTop := true, phase := .desc }, .desc, i, phr || decide (ctl.dir = .downUp)⟩
         else ⟨{ e with run := 0 }, .asc, i, phr⟩)
       else ⟨{ e with run := e.run + 1 }, .asc, i, phr⟩) ∧
    passEnd ctl compose ⟨e, .desc, i, phr⟩ =
      (if e.run - 1 = 0 then
        (if compose = true then
          ⟨{ e with run := 0, chopBottom := true, phase := .asc }, .asc, i, phr || decide (ctl.dir = .upDown)⟩
         else ⟨{ e with run := ctl.stepCount }, .desc, i, phr⟩)
       else ⟨{ e with run := e.run - 1 }, .desc, i, phr⟩)

/-- Derived (R170): over a non-zero mask the loop stops on a held index within its bound, from any scan state. -/
def Obligations.ScanStopsOnAHeldIndex : Prop :=
  ∀ (m : Mask) (ctl : Control) (compose : Bool) (x : Scan), m ≠ 0 →
    held (scanMask (scanLoop m ctl compose scanBound x).d m) (scanLoop m ctl compose scanBound x).i = true

/-- Derived (R153 to R157, R160, outside composition): the scan stops at the first held index after the cursor,
cyclically; `run` changes exactly when index 7 was passed. -/
def Obligations.ScanFindsTheNextHeldIndex : Prop :=
  ∀ (m : Mask) (ctl : Control) (d : Direction) (e : EngineState), m ≠ 0 →
    let x := findStop m ctl false d e
    let r := normaliseRun ctl.stepCount d e.run
    x.d = d ∧ x.phr = false ∧
    ∃ n, n < 8 ∧ x.i = scanStart e.cursor + Fin.ofNat 8 n ∧ held (scanMask d m) x.i = true ∧
      (∀ k, k < n → held (scanMask d m) (scanStart e.cursor + Fin.ofNat 8 k) = false) ∧
      x.eng.run =
        (if (scanStart e.cursor).val + n ≤ 7 then r
         else match d with
          | .asc => if r + 1 < ctl.stepCount then r + 1 else 0
          | .desc => if r - 1 = 0 then ctl.stepCount else r - 1)

/-- Derived (R153 to R157, R160, R162): the scan in every mode, from the index after the cursor. If an index from there to
7 is held, it stops at the first such index, and all it has changed is the toggle, the normalised `run` and, where it
passed index 0, the wrap. If none is, the pass ends, which in composition at the end of a sweep flips the direction, sets
the chop and may signal phrase complete (R160, the statement PassEndCountsOnePass), and the same scan goes on at index 0
of the scan mask of the direction then in force, to its first held index; passing index 0 clears the wrap. -/
def Obligations.ScanGoesOnThroughTheEndOfAPass : Prop :=
  ∀ (m : Mask) (ctl : Control) (compose : Bool) (d : Direction) (e : EngineState), m ≠ 0 →
    let i := scanStart e.cursor
    let e0 : EngineState := { e with snt := false, run := normaliseRun ctl.stepCount d e.run }
    let y := passEnd ctl compose ⟨e0, d, 7, false⟩
    (∀ k : Degree, i.val ≤ k.val → held (scanMask d m) k = true →
      (∀ j : Degree, i.val ≤ j.val → j.val < k.val → held (scanMask d m) j = false) →
      findStop m ctl compose d e =
        ⟨{ e0 with octaveWrap := e.octaveWrap && !(decide (i = 0) && decide (k ≠ 0)) }, d, k, false⟩) ∧
    ((∀ j : Degree, i.val ≤ j.val → held (scanMask d m) j = false) →
      ∃ k : Degree, held (scanMask y.d m) k = true ∧ (∀ j : Degree, j.val < k.val → held (scanMask y.d m) j = false) ∧
        findStop m ctl compose d e = ⟨{ y.eng with octaveWrap := e.octaveWrap && decide (k = 0) }, y.d, k, y.phr⟩)

/-- Derived (R153, R157, R168): every regular invocation ends with the cursor on the index `x.i` of its stop, mirrored in
direct alternation, and the single-note toggle cleared, whether or not a note was emitted; the stop is on a held degree,
and outside composition it is in the direction selected (R152). -/
def Obligations.RegularInvocationLandsOnAHeldDegree : Prop :=
  ∀ (split : Fin 9) (m : Mask) (ctl : Control) (e : EngineState), m ≠ 0 → isSingle m ctl = false →
    let x := findStop m ctl (isCompose m ctl) (select m ctl e).phase (select m ctl e)
    (engine split m ctl e).1.snt = false ∧ held m (degreeAt x.d x.i) = true ∧
    (engine split m ctl e).1.cursor = some (if isAlt m ctl then mirror x.i else x.i) ∧
    (isCompose m ctl = false → x.d = selectPhase ctl.dir e.cursor e.phase)

/-- Derived (R158, R159): what a regular invocation answers at its stop `x`. A stop that a pending wrap or chop
suppresses, or whose octave is invalid, answers None; every other stop answers the Note of its degree, at the octave
`O + off + bump`. -/
def Obligations.StopAnswersItsNote : Prop :=
  ∀ (split : Fin 9) (m : Mask) (ctl : Control) (e : EngineState), m ≠ 0 → isSingle m ctl = false →
    let x := findStop m ctl (isCompose m ctl) (select m ctl e).phase (select m ctl e)
    let off := match x.d with | .asc => x.eng.run | .desc => x.eng.run - 1
    let oct := ctl.octave + off + (if x.i.val < split.val then 1 else 0)
    let suppressed := (x.i = 0 ∧ x.eng.octaveWrap = true) ∨
      (isCompose m ctl = true ∧ x.d = .desc ∧ x.eng.chopTop = true) ∨
      (isCompose m ctl = true ∧ x.d = .asc ∧ x.eng.chopBottom = true)
    let invalid := (x.i = 7 ∧ ctl.octave + off = 8) ∨ 8 < oct
    (suppressed ∨ invalid → (engine split m ctl e).2.out = .none) ∧
    (¬suppressed → ¬invalid → ∃ o : Octave, o.val = oct ∧
      (engine split m ctl e).2.out =
        .note (scaleRom ctl.scaleMode x.d x.i).1 (scaleRom ctl.scaleMode x.d x.i).2 o ctl.rate (degreeAt x.d x.i))

/-- Derived (R159, R160, R161, R162): what a regular invocation leaves behind its stop `x`, in every mode. The flags that
apply to the stop are spent. A stop below index 7 leaves `run` and the phase as the scan brought them; a stop on index 7
arms the wrap where index 0 of the scan mask in force at the stop is held, and then ends the pass: `run` counts it, and
the end of a sweep wraps `run`, or in composition sets the chop, flips the phase and, back at the start phase, signals
phrase complete. Direct alternation then turns the phase (R168). -/
def Obligations.StopOnIndexSevenEndsThePass : Prop :=
  ∀ (split : Fin 9) (m : Mask) (ctl : Control) (e : EngineState), m ≠ 0 → isSingle m ctl = false →
    let x := findStop m ctl (isCompose m ctl) (select m ctl e).phase (select m ctl e)
    let r := engine split m ctl e
    let kept := if isAlt m ctl then flip x.eng.phase else x.eng.phase
    let top := x.eng.chopTop && !(isCompose m ctl && decide (x.d = .desc))
    let bottom := x.eng.chopBottom && !(isCompose m ctl && decide (x.d = .asc))
    (x.i ≠ 7 →
      r.1.octaveWrap = (x.eng.octaveWrap && decide (x.i ≠ 0)) ∧ r.1.run = x.eng.run ∧ r.1.phase = kept ∧
      r.1.chopTop = top ∧ r.1.chopBottom = bottom ∧ r.2.phrase = x.phr) ∧
    (x.i = 7 → r.1.octaveWrap = (x.eng.octaveWrap || held (scanMask x.d m) 0)) ∧
    (x.i = 7 → x.d = .asc → x.eng.run + 1 < ctl.stepCount →
      r.1.run = x.eng.run + 1 ∧ r.1.phase = kept ∧ r.1.chopTop = top ∧ r.1.chopBottom = bottom ∧ r.2.phrase = x.phr) ∧
    (x.i = 7 → x.d = .desc → x.eng.run - 1 ≠ 0 →
      r.1.run = x.eng.run - 1 ∧ r.1.phase = kept ∧ r.1.chopTop = top ∧ r.1.chopBottom = bottom ∧ r.2.phrase = x.phr) ∧
    (x.i = 7 → x.d = .asc → ctl.stepCount ≤ x.eng.run + 1 →
      (isCompose m ctl = true →
        r.1.run = ctl.stepCount ∧ r.1.phase = .desc ∧ r.1.chopTop = true ∧ r.1.chopBottom = false ∧
        r.2.phrase = (x.phr || decide (ctl.dir = .downUp))) ∧
      (isCompose m ctl = false → r.1.run = 0 ∧ r.1.phase = kept ∧ r.1.chopTop = false ∧ r.1.chopBottom = false ∧
        r.2.phrase = false)) ∧
    (x.i = 7 → x.d = .desc → x.eng.run - 1 = 0 →
      (isCompose m ctl = true →
        r.1.run = 0 ∧ r.1.phase = .asc ∧ r.1.chopTop = false ∧ r.1.chopBottom = true ∧
        r.2.phrase = (x.phr || decide (ctl.dir = .upDown))) ∧
      (isCompose m ctl = false → r.1.run = ctl.stepCount ∧ r.1.phase = kept ∧ r.1.chopTop = false ∧
        r.1.chopBottom = false ∧ r.2.phrase = false))

/-- Derived (R158, R159, R166, R171): a Note sounds a held degree, with the letter that degree has in the scale mode,
the current rate as duration, and an octave from `octave` to `octave + stepCount`. -/
def Obligations.NoteSoundsAHeldDegreeInItsOctaves : Prop :=
  ∀ (split : Fin 9) (m : Mask) (ctl : Control) (e : EngineState) (p : PitchClass) (a : Accidental) (o : Octave)
    (dur : Nat) (deg : Degree), 1 ≤ ctl.stepCount → (engine split m ctl e).2.out = .note p a o dur deg →
    held m deg = true ∧ dur = ctl.rate ∧ (p, a) = scaleRom ctl.scaleMode .asc deg ∧ a = .natural ∧
    ctl.octave ≤ o.val ∧ o.val ≤ ctl.octave + ctl.stepCount

/-- Derived (R166 with R168, decision D24): one held degree with `stepCount = 1` alternates its note and a Rest, in
every mode. -/
def Obligations.SingleNoteAlternatesWithRest : Prop :=
  ∀ (split : Fin 9) (m : Mask) (ctl : Control) (e : EngineState) (g : Degree),
    popcount m = 1 → ctl.stepCount = 1 → held m g = true →
    let d := selectPhase ctl.dir e.cursor e.phase
    let i := degreeAt d g
    let oct := ctl.octave + (if i.val < split.val then 1 else 0)
    let r := engine split m ctl e
    r.2.phrase = false ∧ r.1.run = e.run ∧ r.1.octaveWrap = false ∧ r.1.chopTop = false ∧ r.1.chopBottom = false ∧
    r.1.phase = (if bidirectional ctl.dir then flip d else d) ∧ r.1.snt = !e.snt ∧
    (e.snt = true → r.2.out = .rest ctl.rate ∧
      r.1.cursor = if bidirectional ctl.dir then e.cursor.map mirror else e.cursor) ∧
    (e.snt = false → r.1.cursor = (if bidirectional ctl.dir then some (mirror i) else some i) ∧
      ((i = 7 ∧ ctl.octave = 8) ∨ 8 < oct → r.2.out = .none) ∧
      (¬((i = 7 ∧ ctl.octave = 8) ∨ 8 < oct) → ∃ o : Octave, o.val = oct ∧
        r.2.out = .note (scaleRom ctl.scaleMode d i).1 (scaleRom ctl.scaleMode d i).2 o ctl.rate g))

/-- Derived (R167, R168, decision D23; vectors V9): two held degrees with `stepCount = 1` in Up-Down or Down-Up mode
sound a, b, a, b without end, the lower first in Up-Down and the upper first in Down-Up, for every pair, every modal
split and every base octave up to 7, from any idle start. -/
def Obligations.TwoNotesAlternateForEver : Prop :=
  ∀ (split : Fin 9) (m : Mask) (ctl : Control) (e : EngineState) (a b : Degree),
    a < b → (∀ i, held m i = decide (i = a ∨ i = b)) → ctl.stepCount = 1 → ctl.octave ≤ 7 →
    e.cursor = none → e.octaveWrap = false →
    ∀ n,
      (ctl.dir = .upDown → ∃ p acc o,
        engineOutput split m ctl e n = .note p acc o ctl.rate (if n % 2 = 0 then a else b)) ∧
      (ctl.dir = .downUp → ∃ p acc o,
        engineOutput split m ctl e n = .note p acc o ctl.rate (if n % 2 = 0 then b else a))

/-- Derived (R159, R165, decision D20; ARP property 6): with a chop pending the invocation is silent and the chop is
spent. The premise `ChopPlaced` is part of the invariant every step keeps. -/
def Obligations.ChoppedInvocationIsSilent : Prop :=
  ∀ (split : Fin 9) (m : Mask) (ctl : Control) (e : EngineState), m ≠ 0 → isCompose m ctl = true → e.ChopPlaced →
    (e.chopTop = true → (engine split m ctl e).2.out = .none ∧ (engine split m ctl e).1.chopTop = false) ∧
    (e.chopBottom = true → (engine split m ctl e).2.out = .none ∧ (engine split m ctl e).1.chopBottom = false)

/-- Derived (R159, R161, decision D19; ARP property 5): outside the single-note case. With scan indices 0 and 7 both held
in the direction of the invocation: an armed wrap silences the stop on index 0 that follows index 7 and is spent; and an
Up or Down invocation that stops on index 7 arms it. And in every mode, composition and direct alternation included, a
stop on index 7 arms it where index 0 is held in the scan mask in force at the stop, before any flip. -/
def Obligations.OctaveWrapSilencesTheDoubledRoot : Prop :=
  ∀ (split : Fin 9) (m : Mask) (ctl : Control) (e : EngineState), isSingle m ctl = false →
    (let d := selectPhase ctl.dir e.cursor e.phase
     held (scanMask d m) 0 = true →
      (e.cursor = some 7 → e.octaveWrap = true →
        (engine split m ctl e).2.out = .none ∧ (engine split m ctl e).1.octaveWrap = false) ∧
      (held (scanMask d m) 7 = true → bidirectional ctl.dir = false → (engine split m ctl e).1.cursor = some 7 →
        (engine split m ctl e).1.octaveWrap = true)) ∧
    (let x := findStop m ctl (isCompose m ctl) (select m ctl e).phase (select m ctl e)
     x.i = 7 → held (scanMask x.d m) 0 = true → (engine split m ctl e).1.octaveWrap = true)

/-- Derived (R162, decision D26): phrase complete is signalled exactly when, in composition, the invocation leaves the other
phase and ends in the start phase of the mode. -/
def Obligations.PhraseCompletesOnReturnToStartPhase : Prop :=
  ∀ (split : Fin 9) (m : Mask) (ctl : Control) (e : EngineState), 1 ≤ ctl.stepCount →
    ((engine split m ctl e).2.phrase = true ↔
      m ≠ 0 ∧ isCompose m ctl = true ∧ selectPhase ctl.dir e.cursor e.phase = flip (startPhase ctl.dir) ∧
        (engine split m ctl e).1.phase = startPhase ctl.dir)

/-! ## The whole machine -/

/-- Derived (R51): the invariant holds right after reset, whatever the environment will present. -/
def Obligations.ResetMeetsTheBounds : Prop := ∀ input : List Pins, (resetWith input).Inv

/-- Derived (R51, R25): every step keeps the invariant, from any state that meets it. -/
def Obligations.EveryStepKeepsTheBounds : Prop := ∀ s t : State, s.Inv → step s = .next t → t.Inv

/-- Derived (R51): the listed bounds hold in every state a run from reset reaches. -/
def Obligations.ReachableStatesAreBounded : Prop := ∀ s : State, Reachable s → s.Bounded

/-- Derived (R20, R51): the registers at the widths of the state table lose nothing: two channel states within the
bounds with the same register bits are the same but for the record they present. -/
def Obligations.RegistersHoldTheStateAtTheirWidths : Prop :=
  ∀ x y : ChannelState, x.Inv → y.Inv → x.regs = y.regs → x = { y with port := x.port }

/-- Derived (R82, R276): adjacent events of different channels can be swapped: the final state and the emission trace of
either channel are the same. -/
def Obligations.EventsOfDifferentChannelsCommute : Prop :=
  ∀ (i j : Instr) (c : Channel) (s : State), i.channel = some c → j.channel = some c.other →
    (∃ t, runEvents [i, j] s = .next t ∧ runEvents [j, i] s = .next t) ∧
    ∀ (before after : List Instr) (k : Channel),
      emissionTrace k (before ++ i :: j :: after) s = emissionTrace k (before ++ j :: i :: after) s

/-- Derived (R82, R29, R270): an event of one channel reads and writes only what belongs to that channel. -/
def Obligations.EventsSeeOnlyTheirOwnChannel : Prop :=
  ∀ (i : Instr) (c : Channel) (s s' : State), i.channel = some c → AgreeOn c s s' →
    ∃ t t', exec i s = .next t ∧ exec i s' = .next t' ∧ AgreeOn c t t' ∧ AgreeOn c.other s t ∧ t.input = s.input

/-! ## Ports and the assembler -/

/-- R49 (decision D32): the numeric display shows the attribute under edit and its value. -/
def Obligations.DisplayShowsTheAttributeUnderEdit : Prop :=
  ∀ (s : State) (c : Channel), (outputs s c).attrSel = attrCode (s.chan c).ctl.attr ∧
    (attrCode (s.chan c).ctl.attr = 0#2 → (outputs s c).attrValue = BitVec.ofNat 4 (s.chan c).ctl.stepCount) ∧
    (attrCode (s.chan c).ctl.attr = 1#2 → (outputs s c).attrValue = BitVec.ofNat 4 (s.chan c).ctl.rate) ∧
    (attrCode (s.chan c).ctl.attr = 2#2 → (outputs s c).attrValue = BitVec.ofNat 4 (s.chan c).ctl.octave)

/-- Derived (R101; R40 to R44): the level outputs are the registers. -/
def Obligations.LevelOutputsShowTheRegisters : Prop :=
  ∀ (s : State) (c : Channel), (outputs s c).period = (s.chan c).stage.period ∧
    ((outputs s c).gate = 1#1 ↔ (s.chan c).stage.gate = true) ∧
    ((outputs s c).rest = 1#1 ↔ (s.chan c).stage.restActive = true) ∧
    (outputs s c).bargraph = (s.chan c).stage.bargraph ∧ (outputs s c).scanPos = (s.chan c).sch.scanPos

/-- Derived (R48, R303, decisions D2, D32; log entries 1, 2 and 8): after a cycle without reset the record port of a
channel shows the last record of the cycle's emission trace, the second of two invocations and the only one of one, and
`ev_valid` is 0 where no TICK of the channel invoked the engine. -/
def Obligations.RecordPortShowsTheLastInvocationOfTheCycle : Prop :=
  ∀ (s : State) (tick0 tick1 : Bool) (cmd : Option EventWord) (rest : List Pins),
    s.input = ⟨false, tick0, tick1, cmd⟩ :: rest → ∃ t, step s = .next t ∧ ∀ c : Channel,
      (outputs t c).ev =
        (emissionTrace c (cycleEvents ⟨false, tick0, tick1, cmd⟩) { s with input := rest }.clearPorts).getLast?.map
          Emission.pins

/-- Derived (R48, decision D32; log entry 2): in a cycle of one TICK `ev_valid` is 1 exactly when the TICK invoked the
engine; the fields of the record, with the fields a kind does not use at 0. -/
def Obligations.EventRecordCarriesTheOutput : Prop :=
  (∀ (s : State) (c : Channel), ∃ t, exec (.tick c) s.clearPorts = .next t ∧
    ((outputs t c).ev.isSome = true ↔ (s.chan c).sch.noteDur ≤ (s.chan c).sch.beat + 1)) ∧
  ∀ (s : State) (c : Channel) (phrase : Bool),
    (∀ p a o dur deg, (s.chan c).port = some ⟨.note p a o dur deg, phrase⟩ →
      (outputs s c).ev = some ⟨2#2, pitchCode p, accidentalCode a, BitVec.ofNat 4 o.val, BitVec.ofNat 4 dur,
        BitVec.ofNat 3 deg.val, BitVec.ofBool phrase⟩) ∧
    (∀ dur, (s.chan c).port = some ⟨.rest dur, phrase⟩ →
      (outputs s c).ev = some ⟨1#2, 0#3, 0#1, 0#4, BitVec.ofNat 4 dur, 0#3, BitVec.ofBool phrase⟩) ∧
    ((s.chan c).port = some ⟨.none, phrase⟩ →
      (outputs s c).ev = some ⟨0#2, 0#3, 0#1, 0#4, 0#4, 0#3, BitVec.ofBool phrase⟩)

/-- Derived (R115, MASK): the eight STEPs of `MASK` leave the channel's mask at the value given, whatever it was, and
all else as it was. -/
def Obligations.MaskPseudoEventSetsTheMask : Prop :=
  ∀ (c : Channel) (m : Mask) (s : State), ∃ t, runEvents (maskEvents c m) s = .next t ∧
    t.chan c = { s.chan c with mask := m } ∧ SameOutside c s t

/-- Derived (R114, decision D34): the assembler never produces a reserved word. -/
def Obligations.AssemblerNeverProducesAReservedWord : Prop :=
  ∀ (known : Channel → Option Attr) (line : List Char) (is : List Instr), assembleLine known line = some is →
    ∀ i, i ∈ is → decode (encode i) = .ok i
end

