-- ==== Sys2Proof/Laws/Flags.lean ====
section
/-! SUPPORT. What the flag rules of the engine can do. -/

namespace Sys2Proof.Machine

open Sys2Proof

@[simp] theorem flip_flip (d : Direction) : flip (flip d) = d := by cases d <;> rfl

theorem normaliseRun_asc_lt {S : Nat} (h : 1 ≤ S) (run : Nat) : normaliseRun S .asc run < S := by
  simp only [normaliseRun]
  split <;> omega

theorem normaliseRun_desc_range {S : Nat} (h : 1 ≤ S) (run : Nat) :
    1 ≤ normaliseRun S .desc run ∧ normaliseRun S .desc run ≤ S := by
  simp only [normaliseRun]
  split <;> omega

/-- A `run` in range for the direction it counts in: 0..S-1 ascending, 1..S descending (41_engine.md R154). -/
def RunInRange (S : Nat) (d : Direction) (run : Nat) : Prop :=
  match d with
  | .asc => run < S
  | .desc => 1 ≤ run ∧ run ≤ S

theorem runInRange_normalised {S : Nat} (h : 1 ≤ S) (d : Direction) (run : Nat) :
    RunInRange S d (normaliseRun S d run) := by
  cases d
  · exact normaliseRun_asc_lt h run
  · exact normaliseRun_desc_range h run

theorem RunInRange.le {S : Nat} {d : Direction} {run : Nat} (h : RunInRange S d run) : run ≤ S := by
  cases d <;> simp only [RunInRange] at h <;> omega

theorem RunInRange.offset_lt {S : Nat} {d : Direction} {run : Nat} (h : RunInRange S d run) :
    offset d run < S := by
  cases d <;> simp only [RunInRange, offset] at * <;> omega

/-- Everything a pass end can do: change `run` and nothing else, or in composition flip the direction. -/
theorem passEnd_cases (ctl : Control) (compose : Bool) (x : Scan) :
    (∃ r, passEnd ctl compose x = { x with eng := { x.eng with run := r } } ∧
      (1 ≤ ctl.stepCount → RunInRange ctl.stepCount x.d x.eng.run → RunInRange ctl.stepCount x.d r)) ∨
    (compose = true ∧ x.d = .asc ∧ ctl.stepCount ≤ x.eng.run + 1 ∧
      passEnd ctl compose x =
        { x with
          eng := { x.eng with run := ctl.stepCount, chopTop := true, phase := .desc }
          d := .desc
          phr := x.phr || ctl.dir == .downUp }) ∨
    (compose = true ∧ x.d = .desc ∧ x.eng.run - 1 = 0 ∧
      passEnd ctl compose x =
        { x with
          eng := { x.eng with run := 0, chopBottom := true, phase := .asc }
          d := .asc
          phr := x.phr || ctl.dir == .upDown }) := by
  obtain ⟨e, d, i, phr⟩ := x
  cases d
  · by_cases h : e.run + 1 < ctl.stepCount
    · exact .inl ⟨e.run + 1, by simp [passEnd, ascPassEnd, h], fun _ _ => h⟩
    · cases compose
      · exact .inl ⟨0, by simp [passEnd, ascPassEnd, h], fun hS _ => hS⟩
      · exact .inr (.inl ⟨rfl, rfl, by simpa using h, by simp [passEnd, ascPassEnd, h]⟩)
  · by_cases h : e.run - 1 = 0
    · cases compose
      · exact .inl ⟨ctl.stepCount, by simp [passEnd, descPassEnd, h], fun hS _ => ⟨hS, Nat.le_refl _⟩⟩
      · exact .inr (.inr ⟨rfl, rfl, h, by simp [passEnd, descPassEnd, h]⟩)
    · exact .inl ⟨e.run - 1, by simp [passEnd, descPassEnd, h], fun _ hr => by simp [RunInRange] at *; omega⟩

@[simp] theorem passEnd_i (ctl : Control) (compose : Bool) (x : Scan) : (passEnd ctl compose x).i = x.i := by
  obtain ⟨r, h, _⟩ | ⟨-, -, -, h⟩ | ⟨-, -, -, h⟩ := passEnd_cases ctl compose x <;> rw [h]

@[simp] theorem passEnd_cursor (ctl : Control) (compose : Bool) (x : Scan) :
    (passEnd ctl compose x).eng.cursor = x.eng.cursor := by
  obtain ⟨r, h, _⟩ | ⟨-, -, -, h⟩ | ⟨-, -, -, h⟩ := passEnd_cases ctl compose x <;> rw [h]

@[simp] theorem passEnd_snt (ctl : Control) (compose : Bool) (x : Scan) :
    (passEnd ctl compose x).eng.snt = x.eng.snt := by
  obtain ⟨r, h, _⟩ | ⟨-, -, -, h⟩ | ⟨-, -, -, h⟩ := passEnd_cases ctl compose x <;> rw [h]

@[simp] theorem passEnd_octaveWrap (ctl : Control) (compose : Bool) (x : Scan) :
    (passEnd ctl compose x).eng.octaveWrap = x.eng.octaveWrap := by
  obtain ⟨r, h, _⟩ | ⟨-, -, -, h⟩ | ⟨-, -, -, h⟩ := passEnd_cases ctl compose x <;> rw [h]

/-- A pass end does not look at the scan index. -/
theorem passEnd_setIndex (ctl : Control) (compose : Bool) (x : Scan) (j : Degree) :
    passEnd ctl compose { x with i := j } = { passEnd ctl compose x with i := j } := by
  obtain ⟨e, d, i, phr⟩ := x
  cases d
  · simp only [passEnd, ascPassEnd]
    split
    · rfl
    · split <;> rfl
  · simp only [passEnd, descPassEnd]
    split
    · rfl
    · split <;> rfl

/-- Outside composition a pass end keeps the direction, the phase, the chop flags and the phrase signal. -/
theorem passEnd_plain (ctl : Control) (x : Scan) :
    ∃ r, passEnd ctl false x = { x with eng := { x.eng with run := r } } := by
  obtain ⟨r, h, _⟩ | ⟨hc, -⟩ | ⟨hc, -⟩ := passEnd_cases ctl false x
  · exact ⟨r, h⟩
  · cases hc
  · cases hc

end Sys2Proof.Machine
end

