-- ==== Sys2Proof/Laws/Ops.lean ====
section
/-! SUPPORT. What the operations over masks and scan indices do. -/

namespace Sys2Proof.Machine

open Sys2Proof

@[simp] theorem mirror_mirror (i : Degree) : mirror (mirror i) = i := by simp [mirror]

theorem mirror_val (i : Degree) : (mirror i).val = 7 - i.val := by simp [mirror, Fin.val_rev]

@[simp] theorem degreeAt_degreeAt (d : Direction) (i : Degree) : degreeAt d (degreeAt d i) = i := by
  cases d <;> simp [degreeAt]

/-- The law of `onehot`: its only bit is `d`. -/
theorem held_onehot (d i : Degree) : held (onehot d) i = decide (i = d) := by
  revert d i; decide +kernel

/-- The law of the mask write: bit `d` takes the level, every other bit stays. -/
theorem held_setHeld (m : Mask) (d : Degree) (h : Bool) (i : Degree) :
    held (setHeld m d h) i = if i = d then h else held m i := by
  have ho := held_onehot d i
  unfold held at ho
  unfold setHeld held
  cases h <;> by_cases hi : i = d <;> simp_all

/-- The law of `rev8`. -/
@[simp] theorem held_rev8 (m : Mask) (i : Degree) : held (rev8 m) i = held m (mirror i) := by
  have hi : 8 - 1 - i.val = 8 - (i.val + 1) := by omega
  unfold held rev8 mirror
  rw [BitVec.getLsbD_reverse, BitVec.getMsbD, Fin.val_rev, hi]
  simp

/-- A scan index is held in the scan mask when the degree it stands for is held in the mask. -/
theorem held_scanMask (d : Direction) (m : Mask) (i : Degree) : held (scanMask d m) i = held m (degreeAt d i) := by
  cases d <;> simp [scanMask, degreeAt]

/-- Masks that hold the same degrees are the same. -/
theorem mask_ext {m n : Mask} (h : ∀ i, held m i = held n i) : m = n := by
  apply BitVec.eq_of_getLsbD_eq
  intro i hi
  exact h ⟨i, hi⟩

/-- A non-zero mask holds some degree. -/
theorem exists_held {m : Mask} (h : m ≠ 0) : ∃ i, held m i = true := by
  by_contra hn
  apply h
  apply mask_ext
  intro i
  have : held m i = false := by simpa using fun hi => hn ⟨i, hi⟩
  simpa [held] using this

theorem ne_zero_of_held {m : Mask} {i : Degree} (h : held m i = true) : m ≠ 0 := by
  rintro rfl
  simp [held] at h

/-- A non-zero mask has a held index in the scan of either direction. -/
theorem exists_held_scanMask (d : Direction) {m : Mask} (h : m ≠ 0) : ∃ i, held (scanMask d m) i = true := by
  obtain ⟨i, hi⟩ := exists_held h
  exact ⟨degreeAt d i, by rw [held_scanMask, degreeAt_degreeAt]; exact hi⟩

theorem mem_degrees (i : Degree) : i ∈ degrees := by revert i; decide

/-- The law of `lowbit`: the least held index of a mask that holds one. -/
theorem lowbit_held {m : Mask} {i : Degree} (h : held m i = true) : held m (lowbit m) = true := by
  unfold lowbit
  cases hf : degrees.find? (held m) with
  | none => exact absurd h (by simpa using List.find?_eq_none.mp hf i (mem_degrees i))
  | some j => exact List.find?_some hf

/-- Where only one index is held, `lowbit` is it. -/
theorem lowbit_of_unique {m : Mask} {i : Degree} (h : ∀ j, held m j = decide (j = i)) : lowbit m = i := by
  have : held m (lowbit m) = true := lowbit_held (i := i) (by simp [h])
  simpa [h] using this

/-- `popcount` is 1 exactly when one degree is held. -/
theorem held_of_popcount_one {m : Mask} (h : popcount m = 1) {g : Degree} (hg : held m g = true) :
    ∀ j, held m j = decide (j = g) := by
  revert m g
  decide +kernel

end Sys2Proof.Machine
end

