-- ==== Sys2Proof/Laws/Engine.lean ====
section
/-! SUPPORT. What the scan, the stop and the engine can do. -/

namespace Sys2Proof.Machine

open Sys2Proof

/-- Passing an index that is neither 0 nor 7 only advances the index. -/
theorem passOver_inner (ctl : Control) (compose : Bool) (x : Scan) (h0 : x.i ≠ 0) (h7 : x.i ≠ 7) :
    passOver ctl compose x = { x with i := x.i + 1 } := by simp [passOver, h0, h7]

/-- Passing index 0 clears the wrap. -/
theorem passOver_zero (ctl : Control) (compose : Bool) (x : Scan) (h0 : x.i = 0) :
    passOver ctl compose x = { x with eng := { x.eng with octaveWrap := false }, i := 1 } := by
  simp [passOver, h0]

/-- Passing index 7 ends the pass and goes on at index 0. -/
theorem passOver_seven (ctl : Control) (compose : Bool) (x : Scan) (h7 : x.i = 7) :
    passOver ctl compose x = { passEnd ctl compose x with i := 0 } := by simp [passOver, h7]

@[simp] theorem passOver_i (ctl : Control) (compose : Bool) (x : Scan) : (passOver ctl compose x).i = x.i + 1 := by
  by_cases h0 : x.i = 0
  · simp [passOver_zero ctl compose x h0, h0]
  · by_cases h7 : x.i = 7
    · simp [passOver_seven ctl compose x h7, h7]
    · simp [passOver_inner ctl compose x h0 h7]

/-- What every examination keeps, the loop keeps. -/
theorem scanLoop_keeps {m : Mask} {ctl : Control} {compose : Bool} {P : Scan → Prop}
    (hP : ∀ x, held (scanMask x.d m) x.i = false → P x → P (passOver ctl compose x)) :
    ∀ (fuel : Nat) (x : Scan), P x → P (scanLoop m ctl compose fuel x)
  | 0, _, hx => hx
  | fuel + 1, x, hx => by
    simp only [scanLoop]
    split
    · exact hx
    · rename_i h
      exact scanLoop_keeps hP fuel _ (hP x (by simpa using h) hx)

@[simp] theorem scanLoop_held {m : Mask} (ctl : Control) (compose : Bool) (fuel : Nat) {x : Scan}
    (h : held (scanMask x.d m) x.i = true) : scanLoop m ctl compose fuel x = x := by
  cases fuel <;> simp [scanLoop, h]

theorem scanLoop_notHeld {m : Mask} (ctl : Control) (compose : Bool) (fuel : Nat) {x : Scan}
    (h : held (scanMask x.d m) x.i = false) :
    scanLoop m ctl compose (fuel + 1) x = scanLoop m ctl compose fuel (passOver ctl compose x) := by
  simp [scanLoop, h]

/-- `k` is the first held scan index at or above `i` in direction `d`. -/
def FirstHeldFrom (m : Mask) (d : Direction) (i k : Degree) : Prop :=
  i.val ≤ k.val ∧ held (scanMask d m) k = true ∧
    ∀ j : Degree, i.val ≤ j.val → j.val < k.val → held (scanMask d m) j = false

/-- From any index there is a first held one above, or none at all. -/
theorem firstHeldFrom_or_none (m : Mask) (d : Direction) (i : Degree) :
    (∃ k, FirstHeldFrom m d i k) ∨ ∀ j : Degree, i.val ≤ j.val → held (scanMask d m) j = false := by
  by_cases h : ∃ k : Degree, i.val ≤ k.val ∧ held (scanMask d m) k = true
  · have hp : ∃ n, ∃ hn : n < 8, i.val ≤ n ∧ held (scanMask d m) ⟨n, hn⟩ = true := by
      obtain ⟨k, hk, hh⟩ := h
      exact ⟨k.val, k.isLt, hk, hh⟩
    classical
    obtain ⟨hn, hi, hh⟩ := Nat.find_spec hp
    refine .inl ⟨⟨Nat.find hp, hn⟩, hi, hh, fun j hj hlt => ?_⟩
    have := Nat.find_min hp hlt
    by_contra hne
    exact this ⟨j.isLt, hj, by simpa using hne⟩
  · refine .inr fun j hj => ?_
    by_contra hne
    exact h ⟨j, hj, by simpa using hne⟩

/-- A non-zero mask has a first held index from 0. -/
theorem firstHeldFrom_zero {m : Mask} (d : Direction) (h : m ≠ 0) : ∃ k, FirstHeldFrom m d 0 k := by
  obtain hk | hn := firstHeldFrom_or_none m d 0
  · exact hk
  · obtain ⟨i, hi⟩ := exists_held_scanMask d h
    rw [hn i (Nat.zero_le _)] at hi
    cases hi

/-- The wrap flag after a scan from `i` stopped at `k` in the same pass: cleared where index 0 was passed. -/
def wrapAfter (i k : Degree) (wrap : Bool) : Bool := wrap && !(decide (i = 0) && decide (k ≠ 0))

/-- The loop within one pass: it stops at the first held index and changes only the index and the wrap flag. -/
theorem scanLoop_ascends {m : Mask} (ctl : Control) (compose : Bool) {k : Degree} :
    ∀ (fuel : Nat) (x : Scan), FirstHeldFrom m x.d x.i k → k.val - x.i.val ≤ fuel →
      scanLoop m ctl compose fuel x =
        { x with i := k, eng := { x.eng with octaveWrap := wrapAfter x.i k x.eng.octaveWrap } } := by
  intro fuel
  induction fuel with
  | zero =>
    intro x h hf
    have hk : x.i = k := Fin.ext (by have := h.1; omega)
    subst hk
    simp [scanLoop, wrapAfter]
  | succ fuel ih =>
    intro x h hf
    by_cases hk : x.i = k
    · subst hk
      rw [scanLoop_held _ _ _ h.2.1]
      simp [wrapAfter]
    · have hlt : x.i.val < k.val := by
        have := h.1
        have : x.i.val ≠ k.val := fun hv => hk (Fin.ext hv)
        omega
      have hk8 := k.isLt
      have hv : (x.i + 1).val = x.i.val + 1 := Fin.val_add_one_of_lt' (by omega)
      have h7 : x.i ≠ 7 := fun h7 => by rw [h7] at hlt; simp at hlt; omega
      rw [scanLoop_notHeld _ _ _ (h.2.2 _ (Nat.le_refl _) hlt)]
      have hnext : FirstHeldFrom m x.d (x.i + 1) k :=
        ⟨by omega, h.2.1, fun j hj => h.2.2 j (by omega)⟩
      by_cases h0 : x.i = 0
      · rw [passOver_zero _ _ _ h0]
        rw [h0] at hnext
        have hf' : k.val - (1 : Degree).val ≤ fuel := by rw [h0] at hf; simp at *; omega
        rw [ih _ hnext hf']
        have hk0 : k ≠ 0 := fun hk0 => by rw [hk0] at hlt; simp at hlt
        simp [wrapAfter, h0, hk0]
      · rw [passOver_inner _ _ _ h0 h7, ih _ hnext (by simp only; omega)]
        have h10 : x.i + 1 ≠ 0 := fun h10 => by rw [h10] at hv; simp at hv
        simp [wrapAfter, h0, h10]

/-- The loop over the rest of a pass that holds nothing: the pass ends and the scan is at index 0. -/
theorem scanLoop_exhausts {m : Mask} (ctl : Control) (compose : Bool) (fuel : Nat) :
    ∀ (n : Nat) (x : Scan), x.i.val + n = 7 → x.i ≠ 0 →
      (∀ j : Degree, x.i.val ≤ j.val → held (scanMask x.d m) j = false) →
      scanLoop m ctl compose (fuel + (n + 1)) x = scanLoop m ctl compose fuel { passEnd ctl compose x with i := 0 } := by
  intro n
  induction n with
  | zero =>
    intro x hi _ hn
    rw [Nat.zero_add, scanLoop_notHeld _ _ _ (hn _ (Nat.le_refl _)), passOver_seven _ _ _ (Fin.ext (by simpa using hi))]
  | succ n ih =>
    intro x hi h0 hn
    have hv : (x.i + 1).val = x.i.val + 1 := Fin.val_add_one_of_lt' (by omega)
    have h7 : x.i ≠ 7 := fun h7 => by rw [h7] at hi; simp at hi
    have h10 : x.i + 1 ≠ 0 := fun h10 => by rw [h10] at hv; simp at hv
    rw [show fuel + (n + 1 + 1) = fuel + (n + 1) + 1 by omega, scanLoop_notHeld _ _ _ (hn _ (Nat.le_refl _)),
      passOver_inner _ _ _ h0 h7,
      ih { x with i := x.i + 1 } (by change (x.i + 1).val + n = 7; omega) h10
        (fun j hj => hn j (by change (x.i + 1).val ≤ j.val at hj; omega)),
      passEnd_setIndex]

/-- Everything a scan over a non-zero mask can do: stop in the pass it is in, or end that pass (which in composition may
flip the direction) and stop at the first held index of the next (41_engine.md R153 to R157, R170). -/
theorem scanLoop_cases {m : Mask} (hm : m ≠ 0) (ctl : Control) (compose : Bool) (x : Scan) :
    (∃ k, FirstHeldFrom m x.d x.i k ∧
      scanLoop m ctl compose scanBound x =
        { x with i := k, eng := { x.eng with octaveWrap := wrapAfter x.i k x.eng.octaveWrap } }) ∨
    (x.i ≠ 0 ∧ (∀ j : Degree, x.i.val ≤ j.val → held (scanMask x.d m) j = false) ∧
      ∃ k, FirstHeldFrom m (passEnd ctl compose x).d 0 k ∧
        scanLoop m ctl compose scanBound x =
          { passEnd ctl compose x with
            i := k
            eng := { (passEnd ctl compose x).eng with octaveWrap := wrapAfter 0 k x.eng.octaveWrap } }) := by
  obtain ⟨k, hk⟩ | hn := firstHeldFrom_or_none m x.d x.i
  · exact .inl ⟨k, hk, scanLoop_ascends ctl compose _ x hk (by have := k.isLt; simp only [scanBound]; omega)⟩
  · have h0 : x.i ≠ 0 := by
      intro h0
      obtain ⟨i, hi⟩ := exists_held_scanMask x.d hm
      rw [hn i (by simp [h0])] at hi
      cases hi
    have hi := x.i.isLt
    have hi0 : x.i.val ≠ 0 := fun hv => h0 (Fin.ext hv)
    obtain ⟨k, hk⟩ := firstHeldFrom_zero (m := m) (passEnd ctl compose x).d hm
    refine .inr ⟨h0, hn, k, hk, ?_⟩
    have hb : scanBound = (7 + x.i.val) + ((7 - x.i.val) + 1) := by simp only [scanBound]; omega
    rw [hb, scanLoop_exhausts ctl compose _ _ x (by omega) h0 hn]
    rw [scanLoop_ascends (k := k) ctl compose _ _ hk (by have := k.isLt; simp; omega)]
    simp

/-- The engine over an all-zero mask (41_engine.md R151). -/
theorem engine_zero (split : Fin 9) (ctl : Control) (e : EngineState) :
    engine split 0 ctl e = (idleReset e, ⟨.rest ctl.rate, false⟩) := by simp [engine]

/-- The engine over a non-zero mask: the scanner of the selected state, mirrored in direct alternation. -/
theorem engine_nonzero (split : Fin 9) {m : Mask} (ctl : Control) (e : EngineState) (h : m ≠ 0) :
    engine split m ctl e =
      (if isAlt m ctl then alternate (scanner split m ctl (select m ctl e)).1 else (scanner split m ctl (select m ctl e)).1,
        (scanner split m ctl (select m ctl e)).2) := by
  unfold engine
  rw [if_neg h]

theorem scanner_single (split : Fin 9) {m : Mask} {ctl : Control} (e : EngineState) (h : isSingle m ctl = true) :
    scanner split m ctl e = singleNote split m ctl e.phase e := by simp [scanner, h]

theorem scanner_regular (split : Fin 9) {m : Mask} {ctl : Control} (e : EngineState) (h : isSingle m ctl = false) :
    scanner split m ctl e = regularScan split m ctl (isCompose m ctl) e.phase e := by simp [scanner, h]

/-- Composition excludes the single-note case and direct alternation. -/
theorem isSingle_false_of_compose {m : Mask} {ctl : Control} (h : isCompose m ctl = true) : isSingle m ctl = false := by
  simp only [isCompose, isAlt, isSingle, Bool.and_eq_true, Bool.not_eq_true', Bool.and_eq_false_iff] at *
  obtain ⟨hb, ha⟩ := h
  simp_all
  omega

theorem isAlt_false_of_compose {m : Mask} {ctl : Control} (h : isCompose m ctl = true) : isAlt m ctl = false := by
  simp only [isCompose, Bool.and_eq_true, Bool.not_eq_true'] at h
  exact h.2

/-- A stop whose octave is invalid sounds nothing (41_engine.md R158). -/
theorem sound_invalid (split : Fin 9) (ctl : Control) (d : Direction) (off : Nat) (i : Degree)
    (h : (i = 7 ∧ ctl.octave + off = 8) ∨ 8 < stopOctave split ctl off i) : sound split ctl d off i = .none := by
  unfold sound validOctave
  by_cases hi : i = 7 ∧ ctl.octave + off = 8
  · rw [if_pos hi]
  · rw [if_neg hi, dif_neg (by have := h.resolve_left hi; omega)]

/-- Every other stop sounds the Note of its degree at the octave it asks for (41_engine.md R158, R159). -/
theorem sound_valid (split : Fin 9) (ctl : Control) (d : Direction) (off : Nat) (i : Degree)
    (h : ¬((i = 7 ∧ ctl.octave + off = 8) ∨ 8 < stopOctave split ctl off i)) :
    ∃ o : Octave, o.val = stopOctave split ctl off i ∧
      sound split ctl d off i =
        .note (scaleRom ctl.scaleMode d i).1 (scaleRom ctl.scaleMode d i).2 o ctl.rate (degreeAt d i) := by
  unfold sound validOctave
  rw [if_neg fun hi => h (.inl hi), dif_pos (by omega)]
  exact ⟨_, rfl, rfl⟩

/-- Everything an unsuppressed stop can output: nothing, or the Note of its degree. -/
theorem sound_cases (split : Fin 9) (ctl : Control) (d : Direction) (off : Nat) (i : Degree) :
    sound split ctl d off i = .none ∨
    ∃ o : Octave, o.val = stopOctave split ctl off i ∧
      sound split ctl d off i =
        .note (scaleRom ctl.scaleMode d i).1 (scaleRom ctl.scaleMode d i).2 o ctl.rate (degreeAt d i) := by
  by_cases h : (i = 7 ∧ ctl.octave + off = 8) ∨ 8 < stopOctave split ctl off i
  · exact .inl (sound_invalid split ctl d off i h)
  · exact .inr (sound_valid split ctl d off i h)

/-- Everything a stop can output: nothing, or the Note of its degree. -/
theorem stopOutput_cases (split : Fin 9) (ctl : Control) (compose : Bool) (e : EngineState) (d : Direction) (i : Degree) :
    stopOutput split ctl compose e d i = .none ∨
    stopOutput split ctl compose e d i = sound split ctl d (offset d e.run) i := by
  simp only [stopOutput]
  split
  · exact .inl rfl
  · exact .inr rfl

/-- The note of a degree is the same letter in both directions, and natural (40_pitch_table.md R131). -/
theorem scaleRom_degreeAt (k : ScaleMode) (d : Direction) (i : Degree) :
    scaleRom k d i = scaleRom k .asc (degreeAt d i) := by cases d <;> rfl

end Sys2Proof.Machine
end

