-- ==== Sys2Proof/Laws/PerInstr.lean ====
section
/-! SUPPORT. One statement per event, about its syntax: the word the encoder gives matches the event's row of the opcode
table, mask and match (spec/30_encoding.md R104 to R111, R113). -/

namespace Sys2Proof.Laws.EncodedRow

open Sys2Proof

/-- The `mask` of the event's row of spec/opcode_table.json. -/
def rowMask : Instr → EventWord
  | .nop => 0xFF#8
  | .step _ _ _ => 0xE0#8
  | .attrcyc _ => 0xEF#8
  | .attrdec _ => 0xEF#8
  | .attrinc _ => 0xEF#8
  | .dir _ _ => 0xEC#8
  | .scale _ _ => 0xE8#8
  | .seqrec _ => 0xFC#8
  | .seqplay => 0xFF#8
  | .seqstop => 0xFF#8
  | .tick _ => 0xEF#8

/-- The `match` of the event's row of spec/opcode_table.json. -/
def rowMatch : Instr → EventWord
  | .nop => 0x00#8
  | .step _ _ _ => 0x20#8
  | .attrcyc _ => 0x40#8
  | .attrdec _ => 0x42#8
  | .attrinc _ => 0x43#8
  | .dir _ _ => 0x60#8
  | .scale _ _ => 0x80#8
  | .seqrec _ => 0xB0#8
  | .seqplay => 0xB4#8
  | .seqstop => 0xB8#8
  | .tick _ => 0xC0#8

/-- The encoded word matches the event's row. -/
def Statement (i : Instr) : Prop := encode i &&& rowMask i = rowMatch i

theorem nop : Statement .nop := by unfold Statement; decide

theorem step (c : Channel) (d : Degree) (h : Bool) : Statement (.step c d h) := by
  revert c d h; unfold Statement; intro c; cases c <;> decide

theorem attrcyc (c : Channel) : Statement (.attrcyc c) := by cases c <;> (unfold Statement; decide)

theorem attrdec (c : Channel) : Statement (.attrdec c) := by cases c <;> (unfold Statement; decide)

theorem attrinc (c : Channel) : Statement (.attrinc c) := by cases c <;> (unfold Statement; decide)

theorem dir (c : Channel) (m : DirMode) : Statement (.dir c m) := by cases c <;> cases m <;> (unfold Statement; decide)

theorem scale (c : Channel) (k : BitVec 3) : Statement (.scale c k) := by
  revert c k; unfold Statement; intro c; cases c <;> decide

theorem seqrec (k : Fin 4) : Statement (.seqrec k) := by revert k; unfold Statement; decide

theorem seqplay : Statement .seqplay := by unfold Statement; decide

theorem seqstop : Statement .seqstop := by unfold Statement; decide

theorem tick (c : Channel) : Statement (.tick c) := by cases c <;> (unfold Statement; decide)

end Sys2Proof.Laws.EncodedRow
end

