-- ==== Sys2Proof/Laws/State.lean ====
section
/-! SUPPORT. What each update of the state leaves in each field. -/

namespace Sys2Proof.Machine

open Sys2Proof

@[simp] theorem other_other (c : Channel) : c.other.other = c := by cases c <;> rfl
@[simp] theorem other_ne (c : Channel) : c.other ≠ c := by cases c <;> decide
@[simp] theorem ne_other (c : Channel) : c ≠ c.other := by cases c <;> decide

theorem eq_or_other (c k : Channel) : k = c ∨ k = c.other := by cases c <;> cases k <;> decide

@[simp] theorem chan_one (s : State) : s.chan .one = s.ch1 := rfl
@[simp] theorem chan_two (s : State) : s.chan .two = s.ch2 := rfl

@[simp] theorem setChan_chan (s : State) (c : Channel) (x : ChannelState) : (s.setChan c x).chan c = x := by
  cases c <;> rfl

@[simp] theorem setChan_chan_other (s : State) (c : Channel) (x : ChannelState) :
    (s.setChan c x).chan c.other = s.chan c.other := by cases c <;> rfl

@[simp] theorem setChan_recorder (s : State) (c : Channel) (x : ChannelState) :
    (s.setChan c x).recorder = s.recorder := by cases c <;> rfl

@[simp] theorem setChan_input (s : State) (c : Channel) (x : ChannelState) : (s.setChan c x).input = s.input := by
  cases c <;> rfl

@[simp] theorem setRecorder_chan (s : State) (c : Channel) (r : Recorder) : (s.setRecorder r).chan c = s.chan c := by
  cases c <;> rfl

@[simp] theorem setRecorder_recorder (s : State) (r : Recorder) : (s.setRecorder r).recorder = r := rfl
@[simp] theorem setRecorder_input (s : State) (r : Recorder) : (s.setRecorder r).input = s.input := rfl

@[simp] theorem chan_withInput (s : State) (c : Channel) (l : List Pins) :
    ({ s with input := l } : State).chan c = s.chan c := by cases c <;> rfl

@[simp] theorem clearPorts_chan (s : State) (c : Channel) :
    s.clearPorts.chan c = { s.chan c with port := none } := by cases c <;> rfl

@[simp] theorem clearPorts_recorder (s : State) : s.clearPorts.recorder = s.recorder := rfl
@[simp] theorem clearPorts_input (s : State) : s.clearPorts.input = s.input := rfl

/-- Two states with the same channels, recorder and input stream are the same. -/
theorem state_ext {s t : State} (h : ∀ c, s.chan c = t.chan c) (hr : s.recorder = t.recorder) (hi : s.input = t.input) :
    s = t := by
  have h1 := h .one
  have h2 := h .two
  cases s
  cases t
  simp_all

@[simp] theorem updateControl_chan (c : Channel) (f : Control → Control) (s : State) :
    (updateControl c f s).chan c = { s.chan c with ctl := f (s.chan c).ctl } := by simp [updateControl]

@[simp] theorem updateControl_chan_other (c : Channel) (f : Control → Control) (s : State) :
    (updateControl c f s).chan c.other = s.chan c.other := by simp [updateControl]

@[simp] theorem updateControl_recorder (c : Channel) (f : Control → Control) (s : State) :
    (updateControl c f s).recorder = s.recorder := by simp [updateControl]

@[simp] theorem updateControl_input (c : Channel) (f : Control → Control) (s : State) :
    (updateControl c f s).input = s.input := by simp [updateControl]

end Sys2Proof.Machine
end

