-- ==== Sys2Proof/Laws/Tick.lean ====
section
/-! SUPPORT. What the output stage, the Tick Scheduler and the sequence hook can do. -/

namespace Sys2Proof.Machine

open Sys2Proof

@[simp] theorem emit_mask (table : PeriodTable) (ev : EngineOut) (x : ChannelState) : (emit table ev x).mask = x.mask := by
  cases ev <;> rfl
@[simp] theorem emit_ctl (table : PeriodTable) (ev : EngineOut) (x : ChannelState) : (emit table ev x).ctl = x.ctl := by
  cases ev <;> rfl
@[simp] theorem emit_eng (table : PeriodTable) (ev : EngineOut) (x : ChannelState) : (emit table ev x).eng = x.eng := by
  cases ev <;> rfl
@[simp] theorem emit_port (table : PeriodTable) (ev : EngineOut) (x : ChannelState) : (emit table ev x).port = x.port := by
  cases ev <;> rfl
@[simp] theorem emit_beat (table : PeriodTable) (ev : EngineOut) (x : ChannelState) :
    (emit table ev x).sch.beat = x.sch.beat := by cases ev <;> rfl
@[simp] theorem emit_scanPos (table : PeriodTable) (ev : EngineOut) (x : ChannelState) :
    (emit table ev x).sch.scanPos = x.sch.scanPos := by cases ev <;> rfl
@[simp] theorem emit_gate (table : PeriodTable) (ev : EngineOut) (x : ChannelState) :
    (emit table ev x).stage.gate = x.stage.gate := by cases ev <;> rfl

@[simp] theorem invokes_iff (x : ChannelState) : invokes x = true ↔ x.sch.noteDur ≤ x.sch.beat + 1 := by simp [invokes]

/-- What a TICK presents: the record of its invocation, or what the port held. -/
theorem tickChannel_port (split : Fin 9) (table : PeriodTable) (m : Mask) (x : ChannelState) :
    (tickChannel split table m x).port = if invokes x = true then some (engine split m x.ctl x.eng).2 else x.port := by
  unfold tickChannel
  split <;> simp [invoke, countBeat]

/-- The phrase signal of a TICK is that of its own invocation. -/
theorem tickPhrase_tickChannel (split : Fin 9) (table : PeriodTable) (m : Mask) (x : ChannelState) :
    tickPhrase x (tickChannel split table m x) = (invokes x && (engine split m x.ctl x.eng).2.phrase) := by
  unfold tickPhrase phraseSignal
  cases h : invokes x <;> simp [tickChannel_port, h]

/-- A TICK leaves the StepMask of its channel. -/
@[simp] theorem tickChannel_mask (split : Fin 9) (table : PeriodTable) (m : Mask) (x : ChannelState) :
    (tickChannel split table m x).mask = x.mask := by
  unfold tickChannel
  split <;> simp [invoke, countBeat]

/-- A TICK leaves the ChannelControl of its channel. -/
@[simp] theorem tickChannel_ctl (split : Fin 9) (table : PeriodTable) (m : Mask) (x : ChannelState) :
    (tickChannel split table m x).ctl = x.ctl := by
  unfold tickChannel
  split <;> simp [invoke, countBeat]

/-- Everything the sequence hook can do: nothing, or advance the playback cursor while playing. -/
theorem hook_cases (c : Channel) (phr : Bool) (r : Recorder) :
    hook c phr r = r ∨ (c = .two ∧ r.play = true ∧ phr = true ∧
      hook c phr r = { r with seqCursor := r.seqCursor + 1 }) := by
  cases c
  · exact .inl rfl
  · simp only [hook, seqAdvance]
    split
    · rename_i h
      simp only [Bool.and_eq_true] at h
      exact .inr ⟨trivial, h.1, h.2, rfl⟩
    · exact .inl rfl

@[simp] theorem tickWith_chan (split : Fin 9) (table : PeriodTable) (c : Channel) (s : State) :
    (tickWith split table c s).chan c = tickChannel split table (effMask c s) (s.chan c) := by simp [tickWith]

@[simp] theorem tickWith_chan_other (split : Fin 9) (table : PeriodTable) (c : Channel) (s : State) :
    (tickWith split table c s).chan c.other = s.chan c.other := by simp [tickWith]

@[simp] theorem tickWith_recorder (split : Fin 9) (table : PeriodTable) (c : Channel) (s : State) :
    (tickWith split table c s).recorder =
      hook c (tickPhrase (s.chan c) (tickChannel split table (effMask c s) (s.chan c))) s.recorder := by simp [tickWith]

@[simp] theorem tickWith_input (split : Fin 9) (table : PeriodTable) (c : Channel) (s : State) :
    (tickWith split table c s).input = s.input := by simp [tickWith]

end Sys2Proof.Machine
end

