-- ==== Sys2Proof/Laws/Step.lean ====
section
/-! SUPPORT. What one step can do: the cases of a cycle, and a property that every event keeps. -/

namespace Sys2Proof.Machine

open Sys2Proof

@[simp] theorem andThen_next (s : State) (f : State → Host.Outcome State Fault Refusal) : andThen (.next s) f = f s := rfl

/-- Two outcomes in sequence answer next exactly through a state between them. -/
theorem andThen_eq_next {o : Host.Outcome State Fault Refusal} {f : State → Host.Outcome State Fault Refusal} {t : State} :
    andThen o f = .next t ↔ ∃ s, o = .next s ∧ f s = .next t := by
  cases o <;> simp [andThen]

/-- A property every event keeps, a run of events keeps. -/
theorem runEvents_keeps {P : State → Prop} (hP : ∀ i s t, P s → exec i s = .next t → P t) :
    ∀ (is : List Instr) (s t : State), P s → runEvents is s = .next t → P t
  | [], s, t, hs, h => by
    simp only [runEvents, Host.Outcome.next.injEq] at h
    exact h ▸ hs
  | i :: is, s, t, hs, h => by
    obtain ⟨u, hu, ht⟩ := andThen_eq_next.mp h
    exact runEvents_keeps hP is u t (hP i s u hs hu) ht

/-- Everything a cycle can do: reset, or the two pulses and the command, in that order. -/
theorem runCycle_cases {p : Pins} {s t : State} (h : runCycle p s = .next t) :
    (p.rst = true ∧ t = resetCycle s) ∨
    (p.rst = false ∧ ∃ u v, execPulse p.tick0 .one s.clearPorts = .next u ∧ execPulse p.tick1 .two u = .next v ∧
      execCommand p.cmd v = .next t) := by
  unfold runCycle at h
  split at h
  · rename_i hr
    simp only [Host.Outcome.next.injEq] at h
    exact .inl ⟨hr, h.symm⟩
  · rename_i hr
    obtain ⟨v, hv, ht⟩ := andThen_eq_next.mp h
    obtain ⟨u, hu, hv⟩ := andThen_eq_next.mp hv
    exact .inr ⟨by simpa using hr, u, v, hu, hv, ht⟩

/-- A property that clearing the ports, reset and every event keep, a cycle keeps. -/
theorem runCycle_keeps {P : State → Prop} (hr : ∀ s, P s → P (resetCycle s)) (hc : ∀ s, P s → P s.clearPorts)
    (hP : ∀ i s t, P s → exec i s = .next t → P t) {p : Pins} {s t : State} (hs : P s) (h : runCycle p s = .next t) :
    P t := by
  have pulse : ∀ b c s t, P s → execPulse b c s = .next t → P t := by
    intro b c s t hs h
    unfold execPulse at h
    split at h
    · exact hP _ s t hs h
    · simp only [Host.Outcome.next.injEq] at h
      exact h ▸ hs
  have word : ∀ w s t, P s → execWord w s = .next t → P t := by
    intro w s t hs h
    unfold execWord at h
    split at h
    · exact hP _ s t hs h
    · exact hP _ s t hs h
  obtain ⟨-, rfl⟩ | ⟨-, u, v, hu, hv, ht⟩ := runCycle_cases h
  · exact hr s hs
  · have pv := pulse _ _ u v (pulse _ _ _ u (hc s hs) hu) hv
    unfold execCommand at ht
    split at ht
    · exact word _ v t pv ht
    · simp only [Host.Outcome.next.injEq] at ht
      exact ht ▸ pv

end Sys2Proof.Machine
end

