-- ==== Sys2Proof/Tests/Slice0.lean ====
section
/-! SUPPORT. The model's own tests. Expected results come from the spec: the words and values of
spec/95_test_vectors.md and the examples inside the rules, named at each test. TICK is run with `SPLIT = 1` and
`TESTPERIOD`, as the vectors are. The second half shows, for every obligation with hypotheses, states and operands that
meet them together. -/

namespace Sys2Proof.Tests

open Sys2Proof Sys2Proof.Machine

/-- The next state, if that is the outcome. -/
def nextOf (o : Host.Outcome State Fault Refusal) : Option State :=
  match o with
  | .next s => some s
  | .fault _ => none
  | .refused _ => none

/-- What a next state holds in one place. -/
def sees {α : Type} (f : State → α) (o : Host.Outcome State Fault Refusal) : Option α := (nextOf o).map f

/-- Channel 1 with a mask, `stepCount`, octave and mode; the rest as after reset. -/
def withKeys (m : Mask) (stepCount octave : Nat) (dir : DirMode) : State :=
  { State.reset with
    ch1 := { State.reset.ch1 with
      mask := m
      ctl := { State.reset.ch1.ctl with stepCount := stepCount, octave := octave, dir := dir } } }

/-- The vectors' TICK of channel 1. -/
def tick1 (s : State) : State := tickWith 1 testPeriod .one s

/-- The vectors' TICK of channel 2. -/
def tick2 (s : State) : State := tickWith 1 testPeriod .two s

/-- A channel 1 EngineState put into a state. -/
def withEngine (e : EngineState) (s : State) : State := { s with ch1 := { s.ch1 with eng := e } }

/-! ## Well-formedness -/

/-- 30_encoding.md R103, R108: the one row constraint, `k != 7`, is refused on either channel. -/
theorem test_scale_seven_is_ill_formed :
    (Instr.scale .one 7#3).wellFormed = false ∧ (Instr.scale .two 7#3).wellFormed = false := by decide

theorem test_scale_six_is_well_formed : (Instr.scale .one 6#3).wellFormed = true := by decide

/-! ## Decoding: words written bit by bit from R104 to R111 -/

theorem test_decode_nop : decode 0b00000000#8 = .ok .nop := by rfl
theorem test_decode_step_release : decode 0b00100101#8 = .ok (.step .one 5 false) := by rfl
theorem test_decode_step_hold : decode 0b00111111#8 = .ok (.step .two 7 true) := by rfl
theorem test_decode_attrcyc : decode 0b01000000#8 = .ok (.attrcyc .one) := by rfl
theorem test_decode_attrdec : decode 0b01010010#8 = .ok (.attrdec .two) := by rfl
theorem test_decode_attrinc : decode 0b01000011#8 = .ok (.attrinc .one) := by rfl
theorem test_decode_dir : decode 0b01110011#8 = .ok (.dir .two .downUp) := by rfl
theorem test_decode_dir_up_down : decode 0b01100010#8 = .ok (.dir .one .upDown) := by rfl
theorem test_decode_scale : decode 0b10000101#8 = .ok (.scale .one 5#3) := by rfl
theorem test_decode_seqrec : decode 0b10110011#8 = .ok (.seqrec 3) := by rfl
theorem test_decode_seqplay : decode 0b10110100#8 = .ok .seqplay := by rfl
theorem test_decode_seqstop : decode 0b10111000#8 = .ok .seqstop := by rfl
theorem test_decode_tick : decode 0b11010000#8 = .ok (.tick .two) := by rfl

/-- V14, its reserved samples, each with its class in R112. -/
theorem test_reserved_samples :
    [0x01, 0x10, 0x1F, 0x41, 0x44, 0x51].map (fun w => decode (BitVec.ofNat 8 w)) =
      [.error .nopOperand, .error .nopOperand, .error .nopOperand, .error .attrOperand, .error .attrOperand,
        .error .attrOperand] ∧
    [0x64, 0x7F, 0x87, 0x88, 0x97, 0xA0, 0xA4].map (fun w => decode (BitVec.ofNat 8 w)) =
      [.error .dirOperand, .error .dirOperand, .error .scaleIndex, .error .scaleOperand, .error .scaleIndex,
        .error .seqChannel, .error .seqChannel] ∧
    [0xB5, 0xB9, 0xBC, 0xC1, 0xDF, 0xE0, 0xFF].map (fun w => decode (BitVec.ofNat 8 w)) =
      [.error .seqplayOperand, .error .seqstopOperand, .error .seqSub, .error .tickOperand, .error .tickOperand,
        .error .majorOpcode, .error .majorOpcode] := by refine ⟨rfl, rfl, rfl⟩

/-- The encoder gives the words P1 and P3 write: `0x29`, `0x62`, `0xB2`. -/
theorem test_encode_words :
    encode (.step .one 1 true) = 0x29#8 ∧ encode (.dir .one .upDown) = 0x62#8 ∧ encode (.seqrec 2) = 0xB2#8 := by decide

/-! ## One event at a time -/

/-- R201 example: mask 0b101, `STEP 1, 1, 1` gives 0b111. -/
theorem test_step_holds :
    sees (·.ch1.mask) (exec (.step .one 1 true) (withKeys 0b101#8 2 3 .up)) = some 0b111#8 := by decide

/-- R201 example: then `STEP 1, 0, 0` gives 0b110. -/
theorem test_step_releases :
    sees (·.ch1.mask) (exec (.step .one 0 false) (withKeys 0b111#8 2 3 .up)) = some 0b110#8 := by decide

/-- R202 example: attribute 2 goes to 0. -/
theorem test_attrcyc_wraps :
    sees (fun s => (attrCode s.ch1.ctl.attr).toNat)
      (exec (.attrcyc .one) { State.reset with ch1 := { State.reset.ch1 with ctl := ⟨1, 2, 3, .up, .octave, .ionian⟩ } }) =
      some 0 := by decide

/-- V1: `stepCount` stops at 6 = 9 - 3. -/
theorem test_attrinc_stops_at_the_joint_ceiling :
    sees (·.ch1.ctl.stepCount) (exec (.attrinc .one) (withKeys 0#8 6 3 .up)) = some 6 ∧
    sees (·.ch1.ctl.stepCount) (exec (.attrinc .one) (withKeys 0#8 5 3 .up)) = some 6 := by decide

/-- V1: `octave` at its floor 0. -/
theorem test_attrdec_stops_at_zero :
    sees (·.ch1.ctl.octave)
      (exec (.attrdec .one) { State.reset with ch1 := { State.reset.ch1 with ctl := ⟨2, 6, 0, .up, .octave, .ionian⟩ } }) =
      some 0 := by decide

/-- R204 example: `rate[1] = 1` stays 1. -/
theorem test_attrdec_rate_floor :
    sees (·.ch2.ctl.rate)
      (exec (.attrdec .two) { State.reset with ch2 := { State.reset.ch2 with ctl := ⟨1, 2, 5, .up, .rate, .ionian⟩ } }) =
      some 1 := by decide

/-- V13: `DIR 2, DOWNUP` gives `dir = 3`. -/
theorem test_dir : sees (·.ch2.ctl.dir.code) (exec (.dir .two .downUp) State.reset) = some 3#2 := by decide

/-- V13: `SCALE 2, 6` gives mode 6. -/
theorem test_scale : sees (fun s => scaleCode s.ch2.ctl.scaleMode) (exec (.scale .two 6#3) State.reset) = some 6#3 := by
  decide

/-- R200. -/
theorem test_nop : nextOf (exec .nop (withKeys 0x81#8 1 3 .down)) = some (withKeys 0x81#8 1 3 .down) := by decide

/-- A recorder that plays slot 2. -/
def playing : State :=
  { State.reset with
    ch2 := { State.reset.ch2 with
      mask := 0x15#8
      stage := ⟨true, false, 84, 0b00010000#8⟩
      sch := ⟨0, 4, 9#8⟩ }
    recorder := ⟨#v[0x07#8, 0x38#8, 0x49#8, 0x92#8], 2, true⟩ }

/-- R240 example, while playing: `mask[1] = 0x15`, `SEQREC 2`. -/
theorem test_seqrec : sees (·.recorder.seq.toList) (exec (.seqrec 2) playing) = some [0x07#8, 0x38#8, 0x15#8, 0x92#8] := by
  decide

/-- R241 corner case: while already playing it restarts at slot 0. -/
theorem test_seqplay : sees (fun s => (s.recorder.play, s.recorder.seqCursor)) (exec .seqplay playing) = some (true, 0) := by
  decide

/-- R242 example: `rate[1] = 1`, a Note in effect. -/
theorem test_seqstop :
    sees (fun s => (s.recorder.play, s.recorder.seqCursor, s.ch2.stage, s.ch2.sch)) (exec .seqstop playing) =
      some (false, 0, ⟨true, true, 84, 0x00#8⟩, ⟨0, 1, 9#8⟩) := by rfl

/-- R220 example, V4 invocation 1: the Note. -/
theorem test_tick_sounds :
    (tick1 (withKeys 0x01#8 1 3 .up)).ch1.stage = ⟨false, false, testPeriod .C .natural 4, 0b00000001#8⟩ ∧
    (tick1 (withKeys 0x01#8 1 3 .up)).ch1.port = some ⟨.note .C .natural 4 1 0, false⟩ := by refine ⟨rfl, by decide⟩

/-- V6 invocation 25: the chop and the wrap at once, on the state after invocation 24. -/
theorem test_tick_chops :
    (tick1 (withEngine ⟨some 7, 3, .desc, true, false, true, false⟩ (withKeys 0xFF#8 3 3 .upDown))).ch1.eng =
      ⟨some 0, 3, .desc, false, false, false, false⟩ ∧
    (tick1 (withEngine ⟨some 7, 3, .desc, true, false, true, false⟩ (withKeys 0xFF#8 3 3 .upDown))).ch1.port =
      some ⟨.none, false⟩ := by decide

/-! ## The engine, one invocation -/

/-- V5 invocation 2: scan index 7 sounds and arms `octaveWrap`. -/
theorem test_engine_arms_the_wrap :
    engine 1 0x81#8 ⟨1, 1, 3, .up, .stepCount, .ionian⟩ ⟨some 0, 0, .asc, false, false, false, false⟩ =
      (⟨some 7, 0, .asc, false, false, true, false⟩, ⟨.note .C .natural 3 1 7, false⟩) := by decide

/-- V10 invocation 4: the flip in mid-scan. -/
theorem test_engine_flips_in_mid_scan :
    engine 1 0x07#8 ⟨1, 1, 3, .upDown, .stepCount, .ionian⟩ ⟨some 2, 0, .asc, false, false, false, false⟩ =
      (⟨some 5, 1, .desc, false, false, false, false⟩, ⟨.none, false⟩) := by decide

/-- V8, Down-Up, invocation 13: the phrase signal on the ascending sweep's end. -/
theorem test_engine_signals_phrase :
    engine 1 0x15#8 ⟨1, 2, 3, .downUp, .stepCount, .ionian⟩ ⟨some 4, 1, .asc, false, false, false, false⟩ =
      (⟨some 3, 2, .desc, false, false, false, false⟩, ⟨.none, true⟩) := by decide

/-- V9, degrees 1 and 6 in UpDown, invocation 2: direct alternation with the mirrored cursor. -/
theorem test_engine_alternates :
    engine 1 0x42#8 ⟨1, 1, 3, .upDown, .stepCount, .ionian⟩ ⟨some 6, 0, .desc, false, false, false, false⟩ =
      (⟨some 6, 1, .asc, false, false, false, false⟩, ⟨.note .B .natural 3 1 6, false⟩) := by decide

/-- V8, Down with degrees 0, 4, 7, invocation 1: degree 7 is scan index 0 and takes the bump. -/
theorem test_engine_bumps_the_scan_index :
    (engine 1 0x91#8 ⟨1, 2, 3, .down, .stepCount, .ionian⟩ ⟨none, 0, .asc, false, false, false, false⟩).2.out =
      .note .C .natural 5 1 7 := by decide

/-- V11: the literal guard on scan index 7 at octave 8. -/
theorem test_engine_skips_degree_seven_at_octave_eight :
    (engine 1 0x82#8 ⟨1, 2, 7, .up, .stepCount, .ionian⟩ ⟨some 1, 1, .asc, false, false, false, false⟩) =
      (⟨some 7, 0, .asc, false, false, false, false⟩, ⟨.none, false⟩) := by decide

/-- V16 (a) invocation 6: `run` 2 is brought to 0 under a lowered `stepCount`. -/
theorem test_engine_normalises_run :
    engine 1 0x06#8 ⟨1, 1, 2, .up, .stepCount, .ionian⟩ ⟨some 1, 2, .asc, false, false, false, false⟩ =
      (⟨some 2, 0, .asc, false, false, false, false⟩, ⟨.note .E .natural 2 1 2, false⟩) := by decide

/-! ## The ROMs (V17), cycles, ports and the assembler -/

theorem test_scale_rom :
    [scaleRom .ionian .asc 7, scaleRom .ionian .desc 1, scaleRom .dorian .desc 2, scaleRom .aeolian .asc 0].map (·.1) =
      [.C, .B, .B, .A] ∧
    [scaleRom .locrian .asc 3, scaleRom .locrian .desc 3, scaleRom .lydian .desc 7].map (·.1) = [.E, .F, .F] := by decide

theorem test_pitch_rom :
    pitchRom testPeriod .C .flat 4 = BitVec.ofNat _ 68 ∧ pitchRom testPeriod .F .flat 0 = BitVec.ofNat _ 10 ∧
    pitchRom testPeriod .B .flat 4 = BitVec.ofNat _ 67 ∧ pitchRom testPeriod .G .flat 8 = BitVec.ofNat _ 141 := by
  refine ⟨rfl, rfl, rfl, rfl⟩

/-- R71, R72: the layouts, on (Dorian, descending, 2) = (B, natural) and on (G, flat, 8). -/
theorem test_rom_layouts :
    scaleRomAddress .dorian .desc 2 = 0b0011010#7 ∧ scaleRomWord .dorian .desc 2 = 0b0010#4 ∧
    pitchRomAddress .G .flat 8 = 0b10001101#8 := by decide

/-- P4 (b): with a pulse and a STEP in one cycle the TICK is first and rests; the STEP lands after it. -/
theorem test_same_cycle_order :
    sees (fun s => (s.ch1.mask, s.ch1.sch.scanPos, s.ch1.port))
      (step { State.reset with input := [⟨false, true, false, some 0x28#8⟩] }) =
      some (0x01#8, 1#8, some ⟨.rest 1, false⟩) := by decide

/-- A channel 1 with an empty mask and `rate = 3`. -/
def slowRest : State := { State.reset with ch1 := { State.reset.ch1 with ctl := ⟨3, 2, 3, .up, .rate, .ionian⟩ } }

/-- R48, R303: the pulse invokes the engine (`Rest(3)`) and the command word `TICK 1` of the same cycle only counts the
beat: the port still shows the record of the invocation. -/
theorem test_record_of_the_only_invocation_stays :
    sees (fun s => (s.ch1.port, s.ch1.sch.beat)) (step { slowRest with input := [⟨false, true, false, some 0xC0#8⟩] }) =
      some (some ⟨.rest 3, false⟩, 1) := by decide

/-- R303: the record is gone in the next cycle. -/
theorem test_record_lasts_one_cycle :
    sees (·.ch1.port) (step { slowRest with ch1 := { slowRest.ch1 with port := some ⟨.rest 3, false⟩ } }) = some none := by
  decide

/-- P4 (a): a reserved word leaves the reset state. -/
theorem test_reserved_word_is_ignored : nextOf (step (State.reset.withFetchWord 8 0xE0)) = some State.reset := by decide

/-- R48, R49, R101: the ports after the TICK of the R220 example. -/
theorem test_outputs :
    (outputs (tick1 (withKeys 0x01#8 1 3 .up)) .one).ev = some ⟨2#2, 2#3, 0#1, 4#4, 1#4, 0#3, 0#1⟩ ∧
    (outputs (withKeys 0#8 6 3 .up) .one).attrValue = 6#4 := by decide

theorem test_assembler_reads_a_line :
    assembleWords (fun _ => none) "  STEP 1, 0x3, ON ; hold degree 3".toList = some [0x2B#8] ∧
    assembleWords (fun _ => none) "DIR 2, DOWNUP".toList = some [0x73#8] := by decide

/-- P3: `MASK 2, 0x07` is `0x38 0x39 0x3A 0x33 0x34 0x35 0x36 0x37`. -/
theorem test_assembler_expands_mask :
    assembleWords (fun _ => none) "MASK 2, 0x07".toList =
      some [0x38#8, 0x39#8, 0x3A#8, 0x33#8, 0x34#8, 0x35#8, 0x36#8, 0x37#8] := by decide

/-- R115: from STEPCOUNT to OCTAVE takes two ATTRCYC; where the attribute is not known the line is an error. -/
theorem test_assembler_attrsel :
    assembleWords (fun _ => some .stepCount) "ATTRSEL 1, OCTAVE".toList = some [0x40#8, 0x40#8] ∧
    assembleWords (fun _ => none) "ATTRSEL 1, OCTAVE".toList = none := by decide

/-- R114: an operand out of range is an error. -/
theorem test_assembler_rejects : assembleWords (fun _ => none) "SCALE 1, 7".toList = none := by decide

/-! ## Witnesses: states and operands that meet all the hypotheses of an obligation, together -/

/-- Channel 1 in the middle of a note of nine TICKs. -/
def midNote (beat : Nat) : State :=
  { State.reset with ch1 := { State.reset.ch1 with mask := 0x07#8, sch := ⟨beat, 9, 0#8⟩ } }

theorem witness_ResetCycleDiscardsTicksAndCommand :
    ({ midNote 3 with input := [⟨true, true, true, some 0x28#8⟩] } : State).input = ⟨true, true, true, some 0x28#8⟩ :: [] := by
  rfl

theorem witness_DecodeOfEncodeIsTheInstruction :
    (Instr.step .two 7 true).wellFormed = true ∧ (Instr.scale .two 6#3).wellFormed = true := by decide

theorem witness_LegalWordsAreTheEncodedInstructions : decode 0x96#8 = .ok (.scale .two 6#3) := by rfl

theorem witness_ReservedWordsAreIgnored :
    (decode 0x01#8).toOption = none ∧ (decode 0x97#8).toOption = none ∧ (decode 0xFF#8).toOption = none := by decide

theorem witness_StepRunsTheDecodedWord :
    ({ State.reset with input := [wordCycle 0x28#8] } : State).input = wordCycle 0x28#8 :: [] ∧
    decode 0x28#8 = .ok (.step .one 0 true) ∧ decodeTableWord 8 0x28 = some (.step .one 0 true) := by
  refine ⟨rfl, rfl, rfl⟩

theorem witness_CycleRunsItsEventsInOrder :
    ({ State.reset with input := [⟨false, true, true, some 0xC0#8⟩] } : State).input = ⟨false, true, true, some 0xC0#8⟩ :: [] := by
  rfl

theorem witness_EmptyStreamIdles : State.reset.input = [] := by rfl

/-- At the bounds: 6 + 3 = 9, and `stepCount = 1` with `octave = 8`. -/
theorem witness_SumOfStepCountAndOctaveStaysBelowTen :
    1 ≤ ((withKeys 0#8 1 8 .up).chan .one).ctl.stepCount ∧
    ((withKeys 0#8 1 8 .up).chan .one).ctl.stepCount + ((withKeys 0#8 1 8 .up).chan .one).ctl.octave ≤ 9 ∧
    ((withKeys 0#8 6 3 .up).chan .one).ctl.stepCount + ((withKeys 0#8 6 3 .up).chan .one).ctl.octave ≤ 9 := by decide

theorem witness_PlaybackSubstitutesTheSlot : playing.recorder.play = true ∧ State.reset.recorder.play = false := by decide

/-- One witness per case: Up mode; an empty slot playing; one and two degrees with `stepCount = 1`. -/
theorem witness_PlaybackStaysWithoutAPhrase :
    bidirectional playing.ch2.ctl.dir = false ∧
    effMask .two { playing with recorder := ⟨#v[0#8, 0#8, 0#8, 0#8], 2, true⟩ } = 0 ∧
    (∀ m ∈ [0x80#8, 0x81#8], popcount (effMask .two { playing with
      ch2 := { playing.ch2 with ctl := ⟨1, 1, 5, .upDown, .stepCount, .ionian⟩ }
      recorder := ⟨#v[0#8, 0#8, m, 0#8], 2, true⟩ }) ≤ 2) := by decide

/-- The last TICK below the duration: beat 7 of 9. -/
theorem witness_TickRunsItsSteps_below :
    ((midNote 7).chan .one).sch.beat + 1 < ((midNote 7).chan .one).sch.noteDur := by decide

/-- The first TICK at the duration, and a beat above a lowered duration (R221). -/
theorem witness_TickRunsItsSteps_at :
    ((midNote 8).chan .one).sch.noteDur ≤ ((midNote 8).chan .one).sch.beat + 1 ∧
    ((midNote 9).chan .one).sch.noteDur ≤ ((midNote 9).chan .one).sch.beat + 1 := by decide

theorem witness_NoteLastsExactlyItsDuration :
    ((midNote 0).chan .one).sch.beat = 0 ∧ 1 ≤ ((midNote 0).chan .one).sch.noteDur ∧
    8 < ((midNote 0).chan .one).sch.noteDur := by decide

/-- Whatever the modal split index, this state's invocation sounds degree 0. -/
theorem witness_engine_sounds :
    ∀ split : Fin 9, ∃ p a o dur, (engine split 0x07#8 ⟨1, 2, 3, .up, .stepCount, .ionian⟩
      ⟨none, 0, .asc, false, false, false, false⟩).2.out = .note p a o dur 0 := by
  intro split
  exact ⟨.C, .natural, ⟨if 0 < split.val then 4 else 3, by split <;> decide⟩, 1, by revert split; decide⟩

theorem witness_BarGraphShowsAHeldDegree :
    ((midNote 8).chan .one).sch.noteDur ≤ ((midNote 8).chan .one).sch.beat + 1 ∧
    ∃ (t : State) (r : Emission) (p : PitchClass) (a : Accidental) (o : Octave) (dur : Nat),
      exec (.tick .one) (midNote 8) = .next t ∧ (t.chan .one).port = some r ∧ r.out ≠ .none ∧ r.out = .note p a o dur 0 := by
  obtain ⟨p, a, o, dur, h⟩ := witness_engine_sounds (Config.split .one)
  refine ⟨by decide, tickWith (Config.split .one) Config.periodTable .one (midNote 8),
    (engine (Config.split .one) 0x07#8 ⟨1, 2, 3, .up, .stepCount, .ionian⟩
      ⟨none, 0, .asc, false, false, false, false⟩).2, p, a, o, dur, rfl, ?_, ?_, h⟩
  · have hi : invokes (midNote 8).ch1 = true := by decide
    have hp : ∀ (table : PeriodTable) (ev : EngineOut) (x : ChannelState), (emit table ev x).port = x.port := by
      intro table ev x; cases ev <;> rfl
    show (tickChannel (Config.split .one) Config.periodTable 0x07#8 (midNote 8).ch1).port = _
    unfold tickChannel
    rw [if_pos hi]
    exact hp _ _ _
  · rw [h]; exact fun hh => EngineOut.noConfusion hh

theorem witness_CommandsLeaveTheEngine :
    (∀ c, Instr.nop ≠ .tick c) ∧ Instr.nop ≠ .seqstop ∧ (∀ c, Instr.seqstop ≠ .tick c) := by
  refine ⟨?_, ?_, ?_⟩ <;> simp

theorem witness_FlatsOfCAndFReadTheNatural : PitchClass.B ≠ .C ∧ PitchClass.B ≠ .F := by decide

theorem witness_SelectionOfDirectionAndCase :
    isCompose 0x07#8 ⟨1, 1, 3, .upDown, .stepCount, .ionian⟩ = true ∧
    isCompose 0x03#8 ⟨1, 1, 3, .downUp, .stepCount, .ionian⟩ = false ∧
    isCompose 0xFF#8 ⟨1, 3, 3, .up, .stepCount, .ionian⟩ = false ∧
    isCompose 0xFF#8 ⟨1, 3, 3, .down, .stepCount, .ionian⟩ = false := by decide

theorem witness_NormalisedRunIsInRange : 1 ≤ 1 ∧ 1 ≤ 9 := by decide

/-- Both arms of the guard, and the last valid octave. -/
theorem witness_StopOctaveAndValidity :
    validOctave 1 ⟨1, 2, 7, .up, .stepCount, .ionian⟩ (offset .asc 1) 7 = none ∧
    validOctave 1 ⟨1, 2, 7, .up, .stepCount, .ionian⟩ (offset .asc 1) 0 = none ∧
    validOctave 1 ⟨1, 2, 7, .up, .stepCount, .ionian⟩ (offset .desc 2) 6 = some 8 := by decide

theorem witness_ScanStopsOnAHeldIndex : (0x80#8 : Mask) ≠ 0 ∧ (0x01#8 : Mask) ≠ 0 := by decide

theorem witness_ScanFindsTheNextHeldIndex : (0x81#8 : Mask) ≠ 0 := by decide

theorem witness_RegularInvocationLandsOnAHeldDegree :
    (0x42#8 : Mask) ≠ 0 ∧ isSingle 0x42#8 ⟨1, 1, 3, .upDown, .stepCount, .ionian⟩ = false ∧
    isAlt 0x42#8 ⟨1, 1, 3, .upDown, .stepCount, .ionian⟩ = true ∧
    isAlt 0x07#8 ⟨1, 1, 3, .upDown, .stepCount, .ionian⟩ = false := by decide

/-- V10 invocation 4 (the scan passes index 7 and flips; its stop is chopped), V7 invocation 2 (a Note), and V11 (a stop
on an invalid octave). -/
theorem witness_StopAnswersItsNote :
    (0x07#8 : Mask) ≠ 0 ∧ isSingle 0x07#8 ⟨1, 1, 3, .upDown, .stepCount, .ionian⟩ = false ∧
    findStop 0x07#8 ⟨1, 1, 3, .upDown, .stepCount, .ionian⟩ true .asc ⟨some 2, 0, .asc, false, false, false, false⟩ =
      ⟨⟨some 2, 1, .desc, true, false, false, false⟩, .desc, 5, false⟩ ∧
    isSingle 0x07#8 ⟨1, 1, 3, .up, .stepCount, .ionian⟩ = false ∧
    findStop 0x07#8 ⟨1, 1, 3, .up, .stepCount, .ionian⟩ false .asc ⟨some 0, 0, .asc, false, false, false, false⟩ =
      ⟨⟨some 0, 0, .asc, false, false, false, false⟩, .asc, 1, false⟩ ∧
    findStop 0x82#8 ⟨1, 2, 7, .up, .stepCount, .ionian⟩ false .asc ⟨some 1, 1, .asc, false, false, false, false⟩ =
      ⟨⟨some 1, 1, .asc, false, false, false, false⟩, .asc, 7, false⟩ := by decide

/-- V6, the stops on index 7 of invocations 8, 24, 40 and 48 (a pass and a sweep ending, either direction), one below it
(invocation 2); and V5, invocation 2, outside composition. -/
theorem witness_StopOnIndexSevenEndsThePass :
    isSingle 0xFF#8 ⟨1, 3, 3, .upDown, .stepCount, .ionian⟩ = false ∧
    isCompose 0xFF#8 ⟨1, 3, 3, .upDown, .stepCount, .ionian⟩ = true ∧
    ([(0, Direction.asc), (2, .asc), (2, .desc), (1, .desc)].map (fun (p : Nat × Direction) =>
      let x := findStop 0xFF#8 ⟨1, 3, 3, .upDown, .stepCount, .ionian⟩ true p.2 ⟨some 6, p.1, p.2, false, false, false, false⟩
      (x.i, x.d, x.eng.run))) = [(7, .asc, 0), (7, .asc, 2), (7, .desc, 2), (7, .desc, 1)] ∧
    (findStop 0xFF#8 ⟨1, 3, 3, .upDown, .stepCount, .ionian⟩ true .asc ⟨some 0, 0, .asc, false, false, false, false⟩).i = 1 ∧
    isCompose 0x81#8 ⟨1, 1, 3, .up, .stepCount, .ionian⟩ = false ∧
    (findStop 0x81#8 ⟨1, 1, 3, .up, .stepCount, .ionian⟩ false .asc ⟨some 0, 0, .asc, false, false, false, false⟩).i = 7 ∧
    isCompose 0x81#8 ⟨1, 1, 3, .down, .stepCount, .ionian⟩ = false ∧
    (findStop 0x81#8 ⟨1, 1, 3, .down, .stepCount, .ionian⟩ false .desc ⟨some 0, 1, .desc, false, false, false, false⟩).i = 7 := by
  decide

/-- An index held from the cursor on; and none held up to 7, where the sweep ends and the scan flips (V10, 4). -/
theorem witness_ScanGoesOnThroughTheEndOfAPass :
    (0x07#8 : Mask) ≠ 0 ∧ held (scanMask .asc 0x07#8) 1 = true ∧ (scanStart (some 0)).val ≤ (1 : Degree).val ∧
    (∀ j : Degree, (scanStart (some 0)).val ≤ j.val → j.val < (1 : Degree).val → held (scanMask .asc 0x07#8) j = false) ∧
    (∀ j : Degree, (scanStart (some 2)).val ≤ j.val → held (scanMask .asc 0x07#8) j = false) := by decide

theorem witness_RecordPortShowsTheLastInvocationOfTheCycle :
    ({ slowRest with input := [⟨false, true, false, some 0xC0#8⟩] } : State).input = ⟨false, true, false, some 0xC0#8⟩ :: [] ∧
    cycleEvents ⟨false, true, false, some 0xC0#8⟩ = [.tick .one, .tick .one] := by
  exact ⟨rfl, by decide⟩

theorem witness_NoteSoundsAHeldDegreeInItsOctaves :
    1 ≤ 2 ∧ (engine 1 0x07#8 ⟨1, 2, 3, .up, .stepCount, .ionian⟩ ⟨none, 0, .asc, false, false, false, false⟩).2.out =
      .note .C .natural 4 1 0 := by decide

/-- A note half that sounds, one that does not (V11: degree 0 and degree 7 at octave 8), and a rest half. -/
theorem witness_SingleNoteAlternatesWithRest :
    popcount 0x08#8 = 1 ∧ held 0x08#8 3 = true ∧ popcount 0x80#8 = 1 ∧ held 0x80#8 7 = true ∧
    ¬((degreeAt .asc 3 = 7 ∧ 8 = 8) ∨ 8 < 8 + (if (degreeAt .asc 3).val < (1 : Fin 9).val then 1 else 0)) ∧
    ((degreeAt .asc 7 = 7 ∧ 8 = 8) ∨ 8 < 8 + (if (degreeAt .asc 7).val < (1 : Fin 9).val then 1 else 0)) := by decide

/-- Both modes, at the top octave the statement covers, with the pair of the two ends. -/
theorem witness_TwoNotesAlternateForEver :
    (0 : Degree) < 7 ∧ (∀ i, held 0x81#8 i = decide (i = 0 ∨ i = 7)) ∧
    (⟨1, 1, 7, .upDown, .stepCount, .ionian⟩ : Control).stepCount = 1 ∧
    (⟨1, 1, 7, .downUp, .stepCount, .ionian⟩ : Control).octave ≤ 7 ∧
    (⟨none, 0, .asc, false, false, false, false⟩ : EngineState).cursor = none ∧
    (⟨none, 0, .asc, false, false, false, false⟩ : EngineState).octaveWrap = false := by decide

/-- The states after V6 invocations 24 and 48. -/
theorem witness_ChoppedInvocationIsSilent :
    (0xFF#8 : Mask) ≠ 0 ∧ isCompose 0xFF#8 ⟨1, 3, 3, .upDown, .stepCount, .ionian⟩ = true ∧
    (⟨some 7, 3, .desc, true, false, true, false⟩ : EngineState).ChopPlaced ∧
    (⟨some 7, 0, .asc, false, true, true, false⟩ : EngineState).ChopPlaced := by decide

/-- V5: an armed wrap, and the invocation that arms it. -/
theorem witness_OctaveWrapSilencesTheDoubledRoot :
    isSingle 0x81#8 ⟨1, 1, 3, .up, .stepCount, .ionian⟩ = false ∧
    held (scanMask (selectPhase .up (some 7) .asc) 0x81#8) 0 = true ∧
    (⟨some 7, 0, .asc, false, false, true, false⟩ : EngineState).cursor = some 7 ∧
    (⟨some 7, 0, .asc, false, false, true, false⟩ : EngineState).octaveWrap = true ∧
    held (scanMask (selectPhase .up (some 0) .asc) 0x81#8) 7 = true ∧ bidirectional .up = false ∧
    (engine 1 0x81#8 ⟨1, 1, 3, .up, .stepCount, .ionian⟩ ⟨some 0, 0, .asc, false, false, false, false⟩).1.cursor = some 7 := by
  decide

/-- The last clause in composition: V6 invocation 24, which arms by the ascending scan mask and flips. -/
theorem witness_OctaveWrapSilencesTheDoubledRoot_composition :
    isSingle 0xFF#8 ⟨1, 3, 3, .upDown, .stepCount, .ionian⟩ = false ∧
    (let x := findStop 0xFF#8 ⟨1, 3, 3, .upDown, .stepCount, .ionian⟩ true .asc ⟨some 6, 2, .asc, false, false, false, false⟩
     x.i = 7 ∧ x.d = .asc ∧ held (scanMask x.d 0xFF#8) 0 = true) := by decide

/-- The condition holds of one invocation (V10, 6) and fails of another (V10, 4). -/
theorem witness_PhraseCompletesOnReturnToStartPhase :
    1 ≤ 1 ∧
    (engine 1 0x07#8 ⟨1, 1, 3, .upDown, .stepCount, .ionian⟩ ⟨some 6, 1, .desc, false, false, false, false⟩).2.phrase = true ∧
    (engine 1 0x07#8 ⟨1, 1, 3, .upDown, .stepCount, .ionian⟩ ⟨some 2, 0, .asc, false, false, false, false⟩).2.phrase = false := by
  decide

theorem witness_EveryStepKeepsTheBounds : State.reset.Inv ∧ step State.reset = .next State.reset.clearPorts := by
  exact ⟨by decide, rfl⟩

/-- A state two steps from reset. -/
theorem witness_ReachableStatesAreBounded :
    Reachable (resetWith [wordCycle 0x28#8, wordCycle 0x42#8]) ∧
    ∀ t, step (resetWith [wordCycle 0x28#8, wordCycle 0x42#8]) = .next t → Reachable t :=
  ⟨.reset _, fun _ h => .step (.reset _) h⟩

/-- Two channel states that differ in the presented record only. -/
theorem witness_RegistersHoldTheStateAtTheirWidths :
    State.reset.ch1.Inv ∧ ({ State.reset.ch1 with port := some ⟨.rest 1, false⟩ } : ChannelState).Inv ∧
    State.reset.ch1.regs = ({ State.reset.ch1 with port := some ⟨.rest 1, false⟩ } : ChannelState).regs := by decide

theorem witness_EventsOfDifferentChannelsCommute :
    (Instr.tick .one).channel = some .one ∧ Instr.seqstop.channel = some (Channel.other .one) := by decide

/-- Two states that differ in channel 2 only. -/
theorem witness_EventsSeeOnlyTheirOwnChannel :
    (Instr.tick .one).channel = some .one ∧ AgreeOn .one playing State.reset ∧ AgreeOn .two playing (withEngine
      ⟨some 3, 1, .desc, false, false, false, false⟩ playing) := by
  refine ⟨rfl, ⟨rfl, rfl⟩, ⟨rfl, rfl⟩⟩

theorem witness_DisplayShowsTheAttributeUnderEdit :
    attrCode .stepCount = 0#2 ∧ attrCode .rate = 1#2 ∧ attrCode .octave = 2#2 := by decide

/-- A Note and a Rest presented by a TICK, and a `None`. -/
theorem witness_EventRecordCarriesTheOutput :
    ((tick1 (withKeys 0x01#8 1 3 .up)).chan .one).port = some ⟨.note .C .natural 4 1 0, false⟩ ∧
    ((tick1 State.reset).chan .one).port = some ⟨.rest 1, false⟩ ∧
    ((tick1 (withKeys 0x01#8 1 8 .up)).chan .one).port = some ⟨.none, false⟩ := by decide

theorem witness_AssemblerNeverProducesAReservedWord :
    assembleLine (fun _ => none) "SCALE 2, 6".toList = some [.scale .two 6#3] := by decide

/-! ## More of the statements' ground -/

/-- R112: the count of legal words. -/
theorem test_legal_words : (List.range 256).countP (fun w => (decode (BitVec.ofNat 8 w)).toOption.isSome) = 69 := by
  decide +kernel

/-- R291: the first TICK of a silent channel returns `Rest(1)` and counts `scanPos`. -/
theorem test_first_tick_of_a_silent_channel :
    (tick2 State.reset).ch2 = { State.reset.ch2 with sch := ⟨0, 1, 1#8⟩, port := some ⟨.rest 1, false⟩ } := by decide

/-- P3, TICK 6: a phrase completes and the playback cursor moves. -/
theorem test_playback_advances :
    (tick2 { State.reset with
      ch2 := { State.reset.ch2 with
        ctl := ⟨1, 1, 5, .upDown, .stepCount, .ionian⟩
        eng := ⟨some 6, 1, .desc, false, false, false, false⟩ }
      recorder := ⟨#v[0x07#8, 0x38#8, 0x49#8, 0x92#8], 0, true⟩ }).recorder.seqCursor = 1 := by decide

end Sys2Proof.Tests
end

