-- ==== Sys2Proof/Proofs/Scope.lean ====
section
/-! PROOFS. The statements of 00_scope.md. -/

namespace Sys2Proof.Machine

open Sys2Proof

/-- R7 on bit numbers: the law of `rev8` (`held_rev8`) for an index given as a natural. -/
theorem rev8_getLsbD (m : Mask) {i : Nat} (hi : i < 8) : (rev8 m).getLsbD i = m.getLsbD (7 - i) := by
  have h := held_rev8 m ⟨i, hi⟩
  simpa only [held, mirror_val] using h

/-- The mirror of a mirrored index is the index, so reversal undoes itself. -/
@[simp] theorem rev8_rev8 (m : Mask) : rev8 (rev8 m) = m := by
  apply mask_ext
  intro i
  rw [held_rev8, held_rev8, mirror_mirror]

/-- Settles O31, from the law of `rev8` on each bit. -/
theorem mirrorIsAnExactReversal : Obligations.MirrorIsAnExactReversal := by
  intro m
  exact ⟨fun _ hi => rev8_getLsbD m hi, rev8_rev8 m⟩

end Sys2Proof.Machine
end

/-! PROOFS. The statements of 10_state.md. -/

namespace Sys2Proof.Machine

open Sys2Proof

/-! ### The engine's `run` -/

/-- A pass end leaves `run` in range for the direction it leaves in force. -/
theorem passEnd_runInRange {ctl : Control} (hS : 1 ≤ ctl.stepCount) (compose : Bool) {x : Scan}
    (hx : RunInRange ctl.stepCount x.d x.eng.run) :
    RunInRange ctl.stepCount (passEnd ctl compose x).d (passEnd ctl compose x).eng.run := by
  obtain ⟨r, h, hr⟩ | ⟨-, -, -, h⟩ | ⟨-, -, -, h⟩ := passEnd_cases ctl compose x <;> rw [h]
  · exact hr hS hx
  · exact ⟨hS, Nat.le_refl _⟩
  · exact hS

theorem scanLoop_runInRange {m : Mask} (hm : m ≠ 0) {ctl : Control} (hS : 1 ≤ ctl.stepCount) (compose : Bool) {x : Scan}
    (hx : RunInRange ctl.stepCount x.d x.eng.run) :
    RunInRange ctl.stepCount (scanLoop m ctl compose scanBound x).d (scanLoop m ctl compose scanBound x).eng.run := by
  obtain ⟨k, -, h⟩ | ⟨-, -, k, -, h⟩ := scanLoop_cases hm ctl compose x <;> rw [h]
  · exact hx
  · exact passEnd_runInRange hS compose hx

/-- A stop leaves `run` in range, the scan before it having started from a normalised one (41_engine.md R154). -/
theorem finishStop_runInRange (m : Mask) {ctl : Control} (hS : 1 ≤ ctl.stepCount) (compose : Bool) {x : Scan}
    (hx : RunInRange ctl.stepCount x.d x.eng.run) :
    RunInRange ctl.stepCount (finishStop m ctl compose x).d (finishStop m ctl compose x).eng.run := by
  unfold finishStop
  split
  · exact passEnd_runInRange hS compose hx
  · exact hx

theorem regularScan_run_le (split : Fin 9) {m : Mask} (hm : m ≠ 0) {ctl : Control} (hS : 1 ≤ ctl.stepCount)
    (compose : Bool) (d : Direction) (e : EngineState) :
    (regularScan split m ctl compose d e).1.run ≤ ctl.stepCount :=
  (finishStop_runInRange m hS compose (scanLoop_runInRange hm hS compose (runInRange_normalised hS d e.run))).le

@[simp] theorem singleNote_run (split : Fin 9) (m : Mask) (ctl : Control) (d : Direction) (e : EngineState) :
    (singleNote split m ctl d e).1.run = e.run := by
  unfold singleNote
  split <;> rfl

theorem scanner_run_le (split : Fin 9) {m : Mask} (hm : m ≠ 0) {ctl : Control} (hS : 1 ≤ ctl.stepCount)
    (e : EngineState) : (scanner split m ctl e).1.run ≤ max e.run ctl.stepCount := by
  cases h : isSingle m ctl
  · rw [scanner_regular split e h]
    exact Nat.le_trans (regularScan_run_le split hm hS _ _ _) (Nat.le_max_right _ _)
  · rw [scanner_single split e h, singleNote_run]
    exact Nat.le_max_left _ _

/-- An invocation never takes `run` above both its old value and `stepCount`. -/
theorem engine_run_le (split : Fin 9) (m : Mask) {ctl : Control} (hS : 1 ≤ ctl.stepCount) (e : EngineState) :
    (engine split m ctl e).1.run ≤ max e.run ctl.stepCount := by
  by_cases hm : m = 0
  · subst hm
    rw [engine_zero]
    exact Nat.zero_le _
  · have h := scanner_run_le split hm hS (select m ctl e)
    rw [engine_nonzero split ctl e hm]
    split <;> exact h

/-! ### The engine's chop flags -/

/-- No chop is pending. -/
def EngineState.NoChop (e : EngineState) : Prop := e.chopTop = false ∧ e.chopBottom = false

theorem EngineState.NoChop.chopPlaced {e : EngineState} (h : e.NoChop) : e.ChopPlaced := by
  simp [EngineState.ChopPlaced, h.1, h.2]

/-- The phase a placed chop stands for tells the two apart, so at most one is pending. -/
theorem EngineState.ChopPlaced.not_both {e : EngineState} (h : e.ChopPlaced) :
    ¬(e.chopTop = true ∧ e.chopBottom = true) := by
  rintro ⟨ht, hb⟩
  have hd := (h.1 ht).1
  rw [(h.2 hb).1] at hd
  cases hd

/-- A chop that is pending is one that a stop in the direction in force consumes (41_engine.md R159). -/
def Scan.ChopsApply (compose : Bool) (x : Scan) : Prop :=
  (x.eng.chopTop = true → compose = true ∧ x.d = .desc) ∧ (x.eng.chopBottom = true → compose = true ∧ x.d = .asc)

theorem consumeFlags_noChop {compose : Bool} {x : Scan} (hx : x.ChopsApply compose) (i : Degree)
    (cursor : Option Degree) :
    (consumeFlags { x.eng with cursor := cursor } compose x.d i).NoChop := by
  obtain ⟨htop, hbottom⟩ := hx
  constructor
  · cases ht : x.eng.chopTop
    · simp [consumeFlags, ht]
    · obtain ⟨hc, hd⟩ := htop ht
      simp [consumeFlags, hc, hd]
  · cases hb : x.eng.chopBottom
    · simp [consumeFlags, hb]
    · obtain ⟨hc, hd⟩ := hbottom hb
      simp [consumeFlags, hc, hd]

/-- The only chop a pass end sets is the one of the direction it flips to. -/
theorem passEnd_chopsApply (ctl : Control) (compose : Bool) {x : Scan} (hx : x.eng.NoChop) :
    (passEnd ctl compose x).ChopsApply compose := by
  obtain ⟨ht, hb⟩ := hx
  obtain ⟨r, h, -⟩ | ⟨hc, -, -, h⟩ | ⟨hc, -, -, h⟩ := passEnd_cases ctl compose x <;> rw [h]
  · simp [Scan.ChopsApply, ht, hb]
  · simp [Scan.ChopsApply, hb, hc]
  · simp [Scan.ChopsApply, ht, hc]

/-- With the cursor on index 7 a pass end leaves no chop, or in composition a placed one (41_engine.md R160). -/
theorem passEnd_noChop_or_placed (ctl : Control) (compose : Bool) {x : Scan} (hx : x.eng.NoChop)
    (h7 : x.eng.cursor = some 7) :
    (passEnd ctl compose x).eng.NoChop ∨ compose = true ∧ (passEnd ctl compose x).eng.ChopPlaced := by
  obtain ⟨ht, hb⟩ := hx
  obtain ⟨r, h, -⟩ | ⟨hc, -, -, h⟩ | ⟨hc, -, -, h⟩ := passEnd_cases ctl compose x <;> rw [h]
  · exact .inl ⟨ht, hb⟩
  · exact .inr ⟨hc, fun _ => ⟨rfl, h7⟩, fun hb' => absurd hb' (by simp [hb])⟩
  · exact .inr ⟨hc, fun ht' => absurd ht' (by simp [ht]), fun _ => ⟨rfl, h7⟩⟩

/-- Where a chop is pending only for a scan that starts at index 0, the scan comes to a stop that consumes it: it stops
in the pass it starts in, before any flip. -/
theorem scanLoop_chopsApply {m : Mask} (hm : m ≠ 0) (ctl : Control) {compose : Bool} {x : Scan}
    (hx : x.ChopsApply compose) (h0 : x.i ≠ 0 → x.eng.NoChop) :
    (scanLoop m ctl compose scanBound x).ChopsApply compose := by
  obtain ⟨k, -, h⟩ | ⟨hi, -, k, -, h⟩ := scanLoop_cases hm ctl compose x <;> rw [h]
  · exact hx
  · exact passEnd_chopsApply ctl compose (h0 hi)

theorem finishStop_noChop_or_placed (m : Mask) (ctl : Control) {compose : Bool} {x : Scan} (hx : x.ChopsApply compose) :
    (finishStop m ctl compose x).eng.NoChop ∨
      compose = true ∧ (finishStop m ctl compose x).eng.ChopPlaced := by
  have hno := consumeFlags_noChop hx x.i (some x.i)
  unfold finishStop
  split
  · rename_i h7
    exact passEnd_noChop_or_placed ctl compose hno (by simp [armWrap, consumeFlags, h7])
  · exact .inl hno

/-- A pending chop has the cursor on index 7, from where the scan starts at index 0 (41_engine.md R155). -/
theorem EngineState.ChopPlaced.noChop_of_start {e : EngineState} (he : e.ChopPlaced) (h0 : scanStart e.cursor ≠ 0) :
    e.NoChop := by
  have h7 : e.cursor ≠ some 7 := fun h7 => h0 (by rw [h7]; rfl)
  exact ⟨by simpa using fun ht => h7 (he.1 ht).2, by simpa using fun hb => h7 (he.2 hb).2⟩

theorem regularScan_noChop_or_placed (split : Fin 9) {m : Mask} (hm : m ≠ 0) (ctl : Control) {compose : Bool}
    {e : EngineState} (he : e.ChopPlaced) (hc : compose = false → e.NoChop) :
    (regularScan split m ctl compose e.phase e).1.NoChop ∨
      compose = true ∧ (regularScan split m ctl compose e.phase e).1.ChopPlaced := by
  refine finishStop_noChop_or_placed m ctl (scanLoop_chopsApply hm ctl ?_ he.noChop_of_start)
  cases compose
  · obtain ⟨ht, hb⟩ := hc rfl
    simp [Scan.ChopsApply, ht, hb]
  · exact ⟨fun ht => ⟨rfl, (he.1 ht).1⟩, fun hb => ⟨rfl, (he.2 hb).1⟩⟩

theorem singleNote_noChop (split : Fin 9) (m : Mask) (ctl : Control) (d : Direction) {e : EngineState} (he : e.NoChop) :
    (singleNote split m ctl d e).1.NoChop := by
  unfold singleNote
  split <;> exact he

/-- Outside composition `Select` clears the chop flags (41_engine.md R152). -/
theorem select_noChop {m : Mask} {ctl : Control} (hc : isCompose m ctl = false) (e : EngineState) :
    (select m ctl e).NoChop := by simp [select, EngineState.NoChop, hc]

/-- A bidirectional mode that is not idle goes on in its phase (41_engine.md R152). -/
theorem selectPhase_running {dir : DirMode} (hd : bidirectional dir = true) (i : Degree) (phase : Direction) :
    selectPhase dir (some i) phase = phase := by
  cases dir
  case up => cases hd
  case down => cases hd
  case upDown => rfl
  case downUp => rfl

theorem select_chopPlaced (m : Mask) (ctl : Control) {e : EngineState} (he : e.ChopPlaced) :
    (select m ctl e).ChopPlaced := by
  cases hc : isCompose m ctl
  · exact (select_noChop hc e).chopPlaced
  · have hb : bidirectional ctl.dir = true := by
      simp only [isCompose, Bool.and_eq_true] at hc
      exact hc.1
    have hphase : e.cursor = some 7 → (select m ctl e).phase = e.phase := fun h7 => by
      simp [select, h7, selectPhase_running hb]
    constructor
    · intro h
      obtain ⟨hp, h7⟩ := he.1 (by simpa [select, hc] using h)
      exact ⟨(hphase h7).trans hp, h7⟩
    · intro h
      obtain ⟨hp, h7⟩ := he.2 (by simpa [select, hc] using h)
      exact ⟨(hphase h7).trans hp, h7⟩

/-- The scanner leaves no chop pending, or in composition a placed one. -/
theorem scanner_noChop_or_placed (split : Fin 9) {m : Mask} (hm : m ≠ 0) (ctl : Control) {e : EngineState}
    (he : e.ChopPlaced) (hc : isCompose m ctl = false → e.NoChop) :
    (scanner split m ctl e).1.NoChop ∨ isCompose m ctl = true ∧ (scanner split m ctl e).1.ChopPlaced := by
  cases h : isSingle m ctl
  · rw [scanner_regular split e h]
    exact regularScan_noChop_or_placed split hm ctl he hc
  · have hn : isCompose m ctl = false := by
      by_contra hne
      rw [isSingle_false_of_compose (by simpa using hne)] at h
      cases h
    rw [scanner_single split e h]
    exact .inl (singleNote_noChop split m ctl _ (hc hn))

/-- The engine keeps the placing of the chop flags. Direct alternation, which turns the phase and the cursor, has none
pending. -/
theorem engine_chopPlaced (split : Fin 9) (m : Mask) (ctl : Control) {e : EngineState} (he : e.ChopPlaced) :
    (engine split m ctl e).1.ChopPlaced := by
  by_cases hm : m = 0
  · subst hm
    rw [engine_zero]
    exact EngineState.NoChop.chopPlaced ⟨rfl, rfl⟩
  · rw [engine_nonzero split ctl e hm]
    obtain hno | ⟨hc, hp⟩ :=
      scanner_noChop_or_placed split hm ctl (select_chopPlaced m ctl he) (fun hc => select_noChop hc e)
    · have halt : (alternate (scanner split m ctl (select m ctl e)).1).NoChop := hno
      split
      · exact halt.chopPlaced
      · exact hno.chopPlaced
    · simpa [isAlt_false_of_compose hc] using hp

/-! ### The engine's output -/

/-- An output is silent, or lasts `dur` beats. -/
def EngineOut.LastsFor (dur : Nat) (out : EngineOut) : Prop :=
  out = .none ∨ out = .rest dur ∨ ∃ p a o deg, out = .note p a o dur deg

theorem sound_lastsFor_rate (split : Fin 9) (ctl : Control) (d : Direction) (off : Nat) (i : Degree) :
    (sound split ctl d off i).LastsFor ctl.rate := by
  obtain h | ⟨o, -, h⟩ := sound_cases split ctl d off i
  · exact .inl h
  · exact .inr (.inr ⟨_, _, o, _, h⟩)

theorem scanner_lastsFor_rate (split : Fin 9) (m : Mask) (ctl : Control) (e : EngineState) :
    (scanner split m ctl e).2.out.LastsFor ctl.rate := by
  cases h : isSingle m ctl
  · rw [scanner_regular split e h]
    simp only [regularScan]
    obtain h | h := stopOutput_cases split ctl (isCompose m ctl) _ _ _ <;> rw [h]
    · exact .inl rfl
    · exact sound_lastsFor_rate split ctl _ _ _
  · rw [scanner_single split e h]
    unfold singleNote
    split
    · exact .inr (.inl rfl)
    · exact sound_lastsFor_rate split ctl _ _ _

/-- Every Note and every Rest of the engine lasts `rate` beats. -/
theorem engine_lastsFor_rate (split : Fin 9) (m : Mask) (ctl : Control) (e : EngineState) :
    (engine split m ctl e).2.out.LastsFor ctl.rate := by
  by_cases hm : m = 0
  · subst hm
    rw [engine_zero]
    exact .inr (.inl rfl)
  · rw [engine_nonzero split ctl e hm]
    exact scanner_lastsFor_rate split m ctl _

/-! ### The invariant of one channel -/

/-- The output stage takes an output of a legal duration. -/
theorem emit_inv {table : PeriodTable} {ev : EngineOut} {x : ChannelState} (hx : x.Inv) {dur : Nat}
    (hev : ev.LastsFor dur) (h1 : 1 ≤ dur) (h9 : dur ≤ 9) : (emit table ev x).Inv := by
  have ⟨⟨hctl, hrun, _, _, hbeat, _, hboth⟩, hplaced⟩ := hx
  obtain rfl | rfl | ⟨p, a, o, deg, rfl⟩ := hev
  · exact hx
  · exact ⟨⟨hctl, hrun, h1, h9, hbeat, .inl rfl, hboth⟩, hplaced⟩
  · exact ⟨⟨hctl, hrun, h1, h9, hbeat, .inr ⟨deg, rfl⟩, hboth⟩, hplaced⟩

theorem invoke_inv (split : Fin 9) (table : PeriodTable) (m : Mask) {x : ChannelState} (hx : x.Inv) :
    (invoke split table m x).Inv := by
  obtain ⟨⟨hctl, hrun, hd1, hd9, -, hbar, -⟩, hplaced⟩ := hx
  have ⟨hrate1, hrate9, hS1, hS9, _⟩ := hctl
  have hrun' : (engine split m x.ctl x.eng).1.run ≤ 9 :=
    Nat.le_trans (engine_run_le split m hS1 x.eng) (Nat.max_le.mpr ⟨hrun, hS9⟩)
  have hplaced' := engine_chopPlaced split m x.ctl hplaced
  exact emit_inv ⟨⟨hctl, hrun', hd1, hd9, Nat.zero_le _, hbar, hplaced'.not_both⟩, hplaced'⟩
    (engine_lastsFor_rate split m x.ctl x.eng) hrate1 hrate9

/-- Below the duration the new beat is at most 8. -/
theorem countBeat_inv {x : ChannelState} (hx : x.Inv) (hb : invokes x = false) : (countBeat x).Inv := by
  obtain ⟨⟨hctl, hrun, hd1, hd9, -, hbar, hboth⟩, hplaced⟩ := hx
  have hbeat : x.sch.beat + 1 ≤ 8 := by
    simp only [invokes, decide_eq_false_iff_not] at hb
    omega
  exact ⟨⟨hctl, hrun, hd1, hd9, hbeat, hbar, hboth⟩, hplaced⟩

theorem tickChannel_inv (split : Fin 9) (table : PeriodTable) (m : Mask) {x : ChannelState} (hx : x.Inv) :
    (tickChannel split table m x).Inv := by
  unfold tickChannel
  cases hi : invokes x
  · exact countBeat_inv hx hi
  · exact invoke_inv split table m hx

theorem forceRest_inv {x : ChannelState} (hx : x.Inv) : (forceRest x).Inv := by
  obtain ⟨⟨hctl, hrun, -, -, hbeat, -, hboth⟩, hplaced⟩ := hx
  have ⟨hrate1, hrate9, _⟩ := hctl
  exact ⟨⟨hctl, hrun, hrate1, hrate9, hbeat, .inl rfl, hboth⟩, hplaced⟩

/-! ### What an event can do to a channel -/

/-- What a control event can do to ChannelControl: adjust a field, or leave the three counts. -/
def Control.Adjusts (a b : Control) : Prop :=
  b = increase a ∨ b = decrease a ∨ (b.rate = a.rate ∧ b.stepCount = a.stepCount ∧ b.octave = a.octave)

/-- What a command other than SEQSTOP can do to a channel: write its StepMask and ChannelControl, and nothing else
(10_state.md R29). -/
def ChannelState.Commanded (x y : ChannelState) : Prop :=
  ∃ m ctl, y = { x with mask := m, ctl := ctl } ∧ x.ctl.Adjusts ctl

theorem ChannelState.Commanded.refl (x : ChannelState) : x.Commanded x :=
  ⟨x.mask, x.ctl, rfl, .inr (.inr ⟨rfl, rfl, rfl⟩)⟩

theorem setChan_chan_eq (s : State) (c k : Channel) (x : ChannelState) :
    (s.setChan c x).chan k = if k = c then x else s.chan k := by
  obtain rfl | rfl := eq_or_other c k <;> simp

theorem setChan_commanded {s : State} {c : Channel} {x : ChannelState} (h : (s.chan c).Commanded x) (k : Channel) :
    (s.chan k).Commanded ((s.setChan c x).chan k) := by
  rw [setChan_chan_eq]
  split
  · rename_i hk
    exact hk ▸ h
  · exact .refl _

theorem updateControl_commanded {f : Control → Control} (hf : ∀ ctl : Control, ctl.Adjusts (f ctl)) (c : Channel)
    (s : State) (k : Channel) : (s.chan k).Commanded ((updateControl c f s).chan k) :=
  setChan_commanded ⟨_, _, rfl, hf _⟩ k

/-- An event leaves each channel as a TICK of it, as SEQSTOP's forced rest on channel 2, or as a command leaves it. -/
inductive ChannelMove (i : Instr) (s t : State) (k : Channel) : Prop where
  | tick (hi : i = .tick k) (h : t.chan k = tickChannel (Config.split k) Config.periodTable (effMask k s) (s.chan k))
  | stop (hi : i = .seqstop) (h : t.chan k = forceRest (s.chan k))
  | command (h : (s.chan k).Commanded (t.chan k))

theorem Control.Adjusts.of_counts_eq {a b : Control} (hr : b.rate = a.rate) (hS : b.stepCount = a.stepCount)
    (hO : b.octave = a.octave) : a.Adjusts b := .inr (.inr ⟨hr, hS, hO⟩)

/-- No event stops, and each does to a channel one of three things (60_exceptions.md R260, 10_state.md R29). -/
theorem exec_moves (i : Instr) (s : State) : ∃ t, exec i s = .next t ∧ ∀ k, ChannelMove i s t k := by
  have same {t : State} (h : ∀ k, t.chan k = s.chan k) (k) : ChannelMove i s t k := .command (h k ▸ .refl _)
  have adjusted (c : Channel) {f : Control → Control} (hf : ∀ ctl : Control, ctl.Adjusts (f ctl)) (k) :
      ChannelMove i s (updateControl c f s) k := .command (updateControl_commanded hf c s k)
  cases i with
  | nop => exact ⟨s, rfl, same fun _ => rfl⟩
  | step c d h =>
    exact ⟨_, rfl, fun k => .command (setChan_commanded ⟨_, _, rfl, .of_counts_eq rfl rfl rfl⟩ k)⟩
  | attrcyc c => exact ⟨updateControl c _ s, rfl, adjusted c fun _ => .of_counts_eq rfl rfl rfl⟩
  | attrdec c => exact ⟨updateControl c _ s, rfl, adjusted c fun _ => .inr (.inl rfl)⟩
  | attrinc c => exact ⟨updateControl c _ s, rfl, adjusted c fun _ => .inl rfl⟩
  | dir c m => exact ⟨updateControl c _ s, rfl, adjusted c fun _ => .of_counts_eq rfl rfl rfl⟩
  | scale c j =>
    simp only [exec, execScale]
    split
    · exact ⟨updateControl c _ s, rfl, adjusted c fun _ => .of_counts_eq rfl rfl rfl⟩
    · exact ⟨s, rfl, same fun _ => rfl⟩
  | seqrec j => exact ⟨_, rfl, same fun k => setRecorder_chan s k _⟩
  | seqplay => exact ⟨_, rfl, same fun k => setRecorder_chan s k _⟩
  | seqstop =>
    refine ⟨_, rfl, fun k => ?_⟩
    cases k with
    | one => exact .command (.refl _)
    | two => exact .stop rfl rfl
  | tick c =>
    refine ⟨_, rfl, fun k => ?_⟩
    obtain rfl | rfl := eq_or_other c k
    · exact .tick rfl (tickWith_chan _ _ _ _)
    · exact .command (tickWith_chan_other (Config.split c) Config.periodTable c s ▸ .refl _)

theorem exec_move {i : Instr} {s t : State} (h : exec i s = .next t) (k : Channel) : ChannelMove i s t k := by
  obtain ⟨u, hu, hm⟩ := exec_moves i s
  obtain rfl : u = t := by simpa [hu] using h
  exact hm k

/-! ### What the control events keep -/

/-- The joint clamps keep the sum of `stepCount` and `octave` at most 9 (10_state.md R25). -/
theorem Control.Adjusts.sum_le {a b : Control} (h : a.Adjusts b) (h1 : 1 ≤ a.stepCount)
    (h9 : a.stepCount + a.octave ≤ 9) : 1 ≤ b.stepCount ∧ b.stepCount + b.octave ≤ 9 := by
  obtain rfl | rfl | ⟨-, hS, hO⟩ := h
  · cases ha : a.attr <;> simp [increase, ha, ceiling] <;> omega
  · cases ha : a.attr <;> simp [decrease, ha] <;> omega
  · rw [hS, hO]
    exact ⟨h1, h9⟩

theorem Control.Adjusts.rate_range {a b : Control} (h : a.Adjusts b) (h1 : 1 ≤ a.rate) (h9 : a.rate ≤ 9) :
    1 ≤ b.rate ∧ b.rate ≤ 9 := by
  obtain rfl | rfl | ⟨hr, -, -⟩ := h
  · cases ha : a.attr <;> simp [increase, ha] <;> omega
  · cases ha : a.attr <;> simp [decrease, ha] <;> omega
  · rw [hr]
    exact ⟨h1, h9⟩

theorem Control.Adjusts.bounded {a b : Control} (h : a.Adjusts b) (ha : a.Bounded) : b.Bounded := by
  obtain ⟨hr1, hr9, hS1, -, -, hsum⟩ := ha
  obtain ⟨hr1', hr9'⟩ := h.rate_range hr1 hr9
  obtain ⟨hS1', hsum'⟩ := h.sum_le hS1 hsum
  exact ⟨hr1', hr9', hS1', by omega, by omega, hsum'⟩

theorem ChannelState.Commanded.inv {x y : ChannelState} (h : x.Commanded y) (hx : x.Inv) : y.Inv := by
  obtain ⟨m, ctl, rfl, hctl⟩ := h
  obtain ⟨⟨hb, hrest⟩, hplaced⟩ := hx
  exact ⟨⟨hctl.bounded hb, hrest⟩, hplaced⟩

/-! ### The invariant of the machine -/

theorem inv_iff (s : State) : s.Inv ↔ ∀ c, (s.chan c).Inv :=
  ⟨fun h c => by cases c; exacts [h.1, h.2], fun h => ⟨h .one, h .two⟩⟩

theorem exec_inv (i : Instr) (s t : State) (hs : s.Inv) (h : exec i s = .next t) : t.Inv := by
  rw [inv_iff] at *
  intro k
  cases exec_move h k with
  | tick _ ht => exact ht ▸ tickChannel_inv _ _ _ (hs k)
  | stop _ ht => exact ht ▸ forceRest_inv (hs k)
  | command hc => exact hc.inv (hs k)

/-- `stepCount` is 2 at reset, so any octave up to 7 meets the joint bound. -/
theorem channelReset_inv {octave : Nat} (h : octave ≤ 7) : (ChannelState.reset octave).Inv := by
  have hctl : (ChannelState.reset octave).ctl.Bounded := by
    simp only [Control.Bounded, ChannelState.reset]
    omega
  have hplaced : (ChannelState.reset octave).eng.ChopPlaced := EngineState.NoChop.chopPlaced ⟨rfl, rfl⟩
  have hdur : (ChannelState.reset octave).sch.noteDur ≤ 9 := by simp [ChannelState.reset]
  exact ⟨⟨hctl, Nat.zero_le _, Nat.le_refl _, hdur, Nat.zero_le _, .inl rfl, hplaced.not_both⟩, hplaced⟩

/-- Settles O49: channel 1 starts at octave 3 and channel 2 at octave 5. -/
theorem resetMeetsTheBounds : Obligations.ResetMeetsTheBounds :=
  fun _ => ⟨channelReset_inv (by decide), channelReset_inv (by decide)⟩

/-- The next cycle comes off the stream; the channels are as they were. -/
theorem nextCycle_inv {s : State} (hs : s.Inv) : (nextCycle s).2.Inv := by
  unfold nextCycle
  split <;> exact hs

/-- Settles O50: a cycle keeps what clearing the ports, reset and every event keep. -/
theorem everyStepKeepsTheBounds : Obligations.EveryStepKeepsTheBounds := fun _ _ hs h =>
  runCycle_keeps (fun s _ => resetMeetsTheBounds s.input) (fun _ hs => hs) exec_inv (nextCycle_inv hs) h

/-- The invariant holds in every state a run from reset reaches. -/
theorem Reachable.inv {s : State} (hs : Reachable s) : s.Inv := by
  induction hs with
  | reset input => exact resetMeetsTheBounds input
  | step _ h ih => exact everyStepKeepsTheBounds _ _ ih h

/-- Settles O51: the bounds are the part of the invariant that R51 lists. -/
theorem reachableStatesAreBounded : Obligations.ReachableStatesAreBounded := by
  intro s hs
  obtain ⟨⟨h1, -⟩, ⟨h2, -⟩⟩ := hs.inv
  exact ⟨h1, h2⟩

/-! ### The joint bound and the ownership of the engine state -/

/-- Settles O18: a TICK and SEQSTOP keep ChannelControl, and the clamps of a command keep the bound. -/
theorem sumOfStepCountAndOctaveStaysBelowTen : Obligations.SumOfStepCountAndOctaveStaysBelowTen := by
  intro i c s h1 h9
  obtain ⟨t, ht, hmove⟩ := exec_moves i s
  refine ⟨t, ht, ?_⟩
  cases hmove c with
  | tick _ h =>
    rw [h, tickChannel_ctl]
    exact ⟨h1, h9⟩
  | stop _ h =>
    rw [h]
    exact ⟨h1, h9⟩
  | command h =>
    obtain ⟨m, ctl, h, hctl⟩ := h
    rw [h]
    exact hctl.sum_le h1 h9

/-- Settles O28: without TICK an event forces a rest or writes StepMask and ChannelControl only. -/
theorem commandsLeaveTheEngine : Obligations.CommandsLeaveTheEngine := by
  intro i s hi
  obtain ⟨t, ht, hmove⟩ := exec_moves i s
  refine ⟨t, ht, fun c => ?_⟩
  cases hmove c with
  | tick htick _ => exact absurd htick (hi c)
  | stop hstop h =>
    rw [h]
    exact ⟨rfl, rfl, rfl, rfl, rfl, rfl, fun hne => absurd hstop hne⟩
  | command h =>
    obtain ⟨m, ctl, h, -⟩ := h
    rw [h]
    exact ⟨rfl, rfl, rfl, rfl, rfl, rfl, fun _ => ⟨rfl, rfl⟩⟩

/-! ### The registers at their widths -/

/-- A count up to 9 is read back from its 4-bit register. -/
theorem count_eq_of_bits {a b : Nat} (h : BitVec.ofNat 4 a = BitVec.ofNat 4 b) (ha : a ≤ 9) (hb : b ≤ 9) : a = b := by
  have hn := congrArg BitVec.toNat h
  rwa [BitVec.toNat_ofNat, BitVec.toNat_ofNat, Nat.mod_eq_of_lt (by omega), Nat.mod_eq_of_lt (by omega)] at hn

theorem flag_eq_of_bit {a b : Bool} (h : BitVec.ofBool a = BitVec.ofBool b) : a = b := by
  simpa using congrArg (BitVec.getLsbD · 0) h

theorem dirMode_ofCode_code (m : DirMode) : DirMode.ofCode m.code = m := by cases m <;> rfl

theorem scaleModeOfIndex_scaleCode (k : ScaleMode) : scaleModeOfIndex (scaleCode k) = some k := by cases k <;> rfl

theorem attrCode_injective : Function.Injective attrCode := by
  intro a b
  cases a <;> cases b <;> decide

theorem directionCode_injective : Function.Injective directionCode := by
  intro a b
  cases a <;> cases b <;> decide

theorem scaleCode_injective : Function.Injective scaleCode := by
  intro a b h
  have hk := congrArg scaleModeOfIndex h
  simpa only [scaleModeOfIndex_scaleCode, Option.some.injEq] using hk

/-- The code of idle is none of the codes 0 to 7. -/
theorem cursorCode_injective : Function.Injective cursorCode := by
  unfold Function.Injective
  decide

theorem ctl_eq_of_regs {x y : ChannelState} (hx : x.ctl.Bounded) (hy : y.ctl.Bounded) (h : x.regs = y.regs) :
    x.ctl = y.ctl := by
  obtain ⟨-, hxr, -, hxS, hxO, -⟩ := hx
  obtain ⟨-, hyr, -, hyS, hyO, -⟩ := hy
  exact (Control.mk.injEq ..).mpr ⟨count_eq_of_bits (congrArg ChannelRegs.rate h) hxr hyr,
    count_eq_of_bits (congrArg ChannelRegs.stepCount h) hxS hyS,
    count_eq_of_bits (congrArg ChannelRegs.octave h) (Nat.le_succ_of_le hxO) (Nat.le_succ_of_le hyO),
    Function.LeftInverse.injective dirMode_ofCode_code (congrArg ChannelRegs.dir h),
    attrCode_injective (congrArg ChannelRegs.attr h), scaleCode_injective (congrArg ChannelRegs.scaleMode h)⟩

theorem eng_eq_of_regs {x y : ChannelState} (hx : x.eng.run ≤ 9) (hy : y.eng.run ≤ 9) (h : x.regs = y.regs) :
    x.eng = y.eng :=
  (EngineState.mk.injEq ..).mpr ⟨cursorCode_injective (congrArg ChannelRegs.cursor h),
    count_eq_of_bits (congrArg ChannelRegs.run h) hx hy,
    directionCode_injective (congrArg ChannelRegs.phase h), flag_eq_of_bit (congrArg ChannelRegs.chopTop h),
    flag_eq_of_bit (congrArg ChannelRegs.chopBottom h), flag_eq_of_bit (congrArg ChannelRegs.octaveWrap h),
    flag_eq_of_bit (congrArg ChannelRegs.snt h)⟩

theorem sch_eq_of_regs {x y : ChannelState} (hxb : x.sch.beat ≤ 8) (hxd : x.sch.noteDur ≤ 9) (hyb : y.sch.beat ≤ 8)
    (hyd : y.sch.noteDur ≤ 9) (h : x.regs = y.regs) : x.sch = y.sch :=
  (Scheduler.mk.injEq ..).mpr
    ⟨count_eq_of_bits (congrArg ChannelRegs.beat h) (Nat.le_succ_of_le hxb) (Nat.le_succ_of_le hyb),
      count_eq_of_bits (congrArg ChannelRegs.noteDur h) hxd hyd, congrArg ChannelRegs.scanPos h⟩

theorem stage_eq_of_regs {x y : ChannelState} (h : x.regs = y.regs) : x.stage = y.stage :=
  (OutputStage.mk.injEq ..).mpr ⟨flag_eq_of_bit (congrArg ChannelRegs.gate h),
    flag_eq_of_bit (congrArg ChannelRegs.restActive h), congrArg ChannelRegs.period h, congrArg ChannelRegs.bargraph h⟩

/-- Settles O52, part by part: every code is injective, and every count is at most 9. -/
theorem registersHoldTheStateAtTheirWidths : Obligations.RegistersHoldTheStateAtTheirWidths := by
  intro x y hx hy h
  obtain ⟨⟨hxc, hxr, -, hxd, hxb, -⟩, -⟩ := hx
  obtain ⟨⟨hyc, hyr, -, hyd, hyb, -⟩, -⟩ := hy
  exact (ChannelState.mk.injEq ..).mpr ⟨congrArg ChannelRegs.mask h, ctl_eq_of_regs hxc hyc h, eng_eq_of_regs hxr hyr h,
    sch_eq_of_regs hxb hxd hyb hyd h, stage_eq_of_regs h, rfl⟩

/-! ### Reset, the display and the record port -/

/-- Settles O1, each element by evaluating the reset state. -/
theorem resetHoldsTheTableOfValues : Obligations.ResetHoldsTheTableOfValues := by
  refine ⟨fun c => ?_, by decide, rfl, rfl⟩
  cases c <;> and_intros <;> rfl

/-- Settles O55: the code under edit names the field whose value is shown. -/
theorem displayShowsTheAttributeUnderEdit : Obligations.DisplayShowsTheAttributeUnderEdit := by
  intro s c
  refine ⟨rfl, ?_⟩
  cases h : (s.chan c).ctl.attr <;> simp [outputs, attrValue, attrCode, h]

/-- After a TICK from a cleared port the record is valid exactly when the TICK invoked the engine. -/
theorem tickWith_ev_isSome (split : Fin 9) (table : PeriodTable) (c : Channel) (s : State) :
    (outputs (tickWith split table c s.clearPorts) c).ev.isSome = invokes (s.chan c) := by
  have hi : invokes { s.chan c with port := none } = invokes (s.chan c) := rfl
  simp only [outputs, tickWith_chan, tickChannel_port, clearPorts_chan, hi]
  cases invokes (s.chan c) <;> rfl

/-- Settles O58: the first clause is the validity of the record of one TICK, the others read its fields. -/
theorem eventRecordCarriesTheOutput : Obligations.EventRecordCarriesTheOutput := by
  refine ⟨fun s c => ⟨_, rfl, ?_⟩, fun s c phrase => ⟨?_, ?_, ?_⟩⟩
  · rw [tickWith_ev_isSome, invokes_iff]
  · intro p a o dur deg h
    simp [outputs, h, Emission.pins]
  · intro dur h
    simp [outputs, h, Emission.pins]
  · intro h
    simp [outputs, h, Emission.pins]

end Sys2Proof.Machine

/-! PROOFS. The statements of 20_memory.md. -/

namespace Sys2Proof.Machine

open Sys2Proof

/-! ### Agreement on what belongs to a channel -/

@[simp] theorem recorderOf_one (s : State) : s.recorderOf .one = none := rfl
@[simp] theorem recorderOf_two (s : State) : s.recorderOf .two = some s.recorder := rfl

@[simp] theorem setChan_recorderOf (s : State) (c k : Channel) (x : ChannelState) :
    (s.setChan c x).recorderOf k = s.recorderOf k := by cases k <;> simp

/-- The recorder belongs to channel 2. -/
theorem AgreeOn.recorder_eq {s t : State} (h : AgreeOn .two s t) : s.recorder = t.recorder := by simpa using h.2

theorem AgreeOn.symm {c : Channel} {s t : State} (h : AgreeOn c s t) : AgreeOn c t s := ⟨h.1.symm, h.2.symm⟩

theorem AgreeOn.trans {c : Channel} {s t u : State} (h : AgreeOn c s t) (h' : AgreeOn c t u) : AgreeOn c s u :=
  ⟨h.1.trans h'.1, h.2.trans h'.2⟩

/-- The two channels and the input stream are all there is. -/
theorem eq_of_agreeOn {c : Channel} {s t : State} (h : AgreeOn c s t) (h' : AgreeOn c.other s t)
    (hi : s.input = t.input) : s = t := by
  have both (k : Channel) : AgreeOn k s t := by obtain rfl | rfl := eq_or_other c k <;> assumption
  exact state_ext (fun k => (both k).1) (both .two).recorder_eq hi

/-- The effective mask of a channel is read from what belongs to it (44_sequence.md R243). -/
theorem effMask_eq_of_agreeOn {c : Channel} {s t : State} (h : AgreeOn c s t) : effMask c s = effMask c t := by
  cases c with
  | one => exact congrArg ChannelState.mask h.1
  | two =>
    have hch : s.ch2 = t.ch2 := h.1
    simp only [effMask, hch, h.recorder_eq]

/-! ### Changes that belong to a channel -/

/-- A change of the state that belongs to channel `c`: what it leaves there is read from there, and it leaves all that
belongs to the other channel and the input stream as they were. -/
structure OwnedBy (c : Channel) (f : State → State) : Prop where
  agree : ∀ {s s' : State}, AgreeOn c s s' → AgreeOn c (f s) (f s')
  frame : ∀ s : State, AgreeOn c.other s (f s)
  input : ∀ s : State, (f s).input = s.input

/-- Changing nothing belongs to any channel. -/
theorem OwnedBy.id (c : Channel) : OwnedBy c fun s => s :=
  ⟨fun h => h, fun _ => ⟨rfl, rfl⟩, fun _ => rfl⟩

/-- Writing a channel's state belongs to it, where the new state is read from what belongs to it. -/
theorem setChan_ownedBy (c : Channel) {x : State → ChannelState} (hx : ∀ {s s'}, AgreeOn c s s' → x s = x s') :
    OwnedBy c fun s => s.setChan c (x s) where
  agree h := by simp [AgreeOn, hx h, h.2]
  frame s := by simp [AgreeOn]
  input s := by simp

/-- Rewriting ChannelControl belongs to its channel. -/
theorem updateControl_ownedBy (c : Channel) (f : Control → Control) : OwnedBy c (updateControl c f) :=
  setChan_ownedBy c fun h => by rw [h.1]

/-- Writing channel 2's state and the recorder belongs to channel 2. -/
theorem setChan_setRecorder_ownedBy {x : State → ChannelState} {r : State → Recorder}
    (hx : ∀ {s s'}, AgreeOn .two s s' → x s = x s') (hr : ∀ {s s'}, AgreeOn .two s s' → r s = r s') :
    OwnedBy .two fun s => (s.setChan .two (x s)).setRecorder (r s) where
  agree h := ⟨hx h, congrArg some (hr h)⟩
  frame _ := ⟨rfl, rfl⟩
  input _ := rfl

theorem setRecorder_ownedBy {r : State → Recorder} (hr : ∀ {s s'}, AgreeOn .two s s' → r s = r s') :
    OwnedBy .two fun s => s.setRecorder (r s) :=
  setChan_setRecorder_ownedBy (fun h => h.1) hr

/-- A TICK reads its channel, and on channel 2 the recorder too, through the effective mask and the sequence hook. -/
theorem tickWith_ownedBy (split : Fin 9) (table : PeriodTable) (c : Channel) : OwnedBy c (tickWith split table c) := by
  have ticked {s s' : State} (h : AgreeOn c s s') :
      tickChannel split table (effMask c s) (s.chan c) = tickChannel split table (effMask c s') (s'.chan c) := by
    rw [effMask_eq_of_agreeOn h, h.1]
  cases c with
  | one => exact setChan_ownedBy .one ticked
  | two => exact setChan_setRecorder_ownedBy ticked fun h => by rw [ticked h, h.1, h.recorder_eq]

/-- Every event of a channel is a change that belongs to it (20_memory.md R82). -/
theorem exec_ownedBy {i : Instr} {c : Channel} (hi : i.channel = some c) :
    ∃ f, OwnedBy c f ∧ ∀ s, exec i s = .next (f s) := by
  cases i with cases hi
  | step _ d h => exact ⟨_, setChan_ownedBy c fun h => by rw [h.1], fun _ => rfl⟩
  | attrcyc => exact ⟨_, updateControl_ownedBy c _, fun _ => rfl⟩
  | attrdec => exact ⟨_, updateControl_ownedBy c decrease, fun _ => rfl⟩
  | attrinc => exact ⟨_, updateControl_ownedBy c increase, fun _ => rfl⟩
  | dir => exact ⟨_, updateControl_ownedBy c _, fun _ => rfl⟩
  | scale _ k =>
    simp only [exec, execScale]
    cases scaleModeOfIndex k with
    | some mode => exact ⟨_, updateControl_ownedBy c _, fun _ => rfl⟩
    | none => exact ⟨_, .id c, fun _ => rfl⟩
  | seqrec k =>
    refine ⟨_, setRecorder_ownedBy fun {s s'} h => ?_, fun _ => rfl⟩
    have hch : s.ch2 = s'.ch2 := h.1
    rw [h.recorder_eq, hch]
  | seqplay => exact ⟨_, setRecorder_ownedBy fun h => by rw [h.recorder_eq], fun _ => rfl⟩
  | seqstop =>
    exact ⟨_, setChan_setRecorder_ownedBy (fun h => by rw [h.1]) fun h => by rw [h.recorder_eq], fun _ => rfl⟩
  | tick => exact ⟨_, tickWith_ownedBy _ _ c, fun _ => rfl⟩

/-- Settles O54: the event is a change that belongs to its channel. -/
theorem eventsSeeOnlyTheirOwnChannel : Obligations.EventsSeeOnlyTheirOwnChannel := by
  intro i c s s' hi h
  obtain ⟨f, hf, hexec⟩ := exec_ownedBy hi
  exact ⟨f s, f s', hexec s, hexec s', hf.agree h, hf.frame s, hf.input s⟩

/-! ### Swapping events of different channels -/

/-- Each change sees on its own channel what it would see without the other, so the two results agree on both. -/
theorem OwnedBy.commute {c : Channel} {f g : State → State} (hf : OwnedBy c f) (hg : OwnedBy c.other g) (s : State) :
    g (f s) = f (g s) := by
  have keeps (u : State) : AgreeOn c u (g u) := other_other c ▸ hg.frame u
  have onC : AgreeOn c (g (f s)) (f (g s)) := (keeps (f s)).symm.trans (hf.agree (keeps s))
  have onOther : AgreeOn c.other (g (f s)) (f (g s)) := (hg.agree (hf.frame s)).symm.trans (hf.frame (g s))
  exact eq_of_agreeOn onC onOther (by rw [hg.input, hf.input, hf.input, hg.input])

/-- The record an event adds to the trace of a channel is read from that channel. -/
theorem emitted_eq_of_agreeOn {k : Channel} {i : Instr} {s s' t t' : State} (h : AgreeOn k s s') (h' : AgreeOn k t t') :
    emitted k i s t = emitted k i s' t' := by
  simp only [emitted, h.1, h'.1]

/-- An event of another channel adds nothing to the trace of a channel. -/
theorem emitted_eq_nil {k : Channel} {i : Instr} (hi : i.channel ≠ some k) (s t : State) : emitted k i s t = [] := by
  have hne : i ≠ .tick k := fun h => hi (h ▸ rfl)
  simp [emitted, hne]

theorem emissionTrace_cons {i : Instr} {s t : State} (h : exec i s = .next t) (k : Channel) (is : List Instr) :
    emissionTrace k (i :: is) s = emitted k i s t ++ emissionTrace k is t := by
  simp only [emissionTrace, h]

/-- Two runs with the same trace from every state have it behind any run before them. -/
theorem emissionTrace_append_congr {k : Channel} {is js : List Instr}
    (h : ∀ s, emissionTrace k is s = emissionTrace k js s) (before : List Instr) (s : State) :
    emissionTrace k (before ++ is) s = emissionTrace k (before ++ js) s := by
  induction before generalizing s with
  | nil => exact h s
  | cons b bs ih =>
    obtain ⟨t, ht, -⟩ := exec_moves b s
    simp only [List.cons_append, emissionTrace_cons ht, ih]

/-- Swapping two events leaves the trace of the channel of one of them: the other one adds nothing to it, before or
after. -/
theorem emissionTrace_swap {i j : Instr} {c : Channel} (hi : i.channel = some c) (hj : j.channel = some c.other)
    (after : List Instr) (s : State) :
    emissionTrace c (i :: j :: after) s = emissionTrace c (j :: i :: after) s := by
  obtain ⟨f, hf, hfi⟩ := exec_ownedBy hi
  obtain ⟨g, hg, hgj⟩ := exec_ownedBy hj
  have silent (u v : State) : emitted c j u v = [] := emitted_eq_nil (by simp [hj]) u v
  have keeps : AgreeOn c s (g s) := other_other c ▸ hg.frame s
  calc emissionTrace c (i :: j :: after) s
      = emitted c i s (f s) ++ emissionTrace c after (g (f s)) := by
        simp [emissionTrace_cons (hfi _), emissionTrace_cons (hgj _), silent]
    _ = emitted c i (g s) (f (g s)) ++ emissionTrace c after (f (g s)) := by
        rw [emitted_eq_of_agreeOn keeps (hf.agree keeps), hf.commute hg]
    _ = emissionTrace c (j :: i :: after) s := by
        simp [emissionTrace_cons (hfi _), emissionTrace_cons (hgj _), silent]

/-- Settles O53: the changes commute, and either channel is the channel of one of the two events. -/
theorem eventsOfDifferentChannelsCommute : Obligations.EventsOfDifferentChannelsCommute := by
  intro i j c s hi hj
  obtain ⟨f, hf, hfi⟩ := exec_ownedBy hi
  obtain ⟨g, hg, hgj⟩ := exec_ownedBy hj
  refine ⟨⟨g (f s), ?_, ?_⟩, fun before after k => emissionTrace_append_congr (fun u => ?_) before s⟩
  · simp [runEvents, hfi, hgj]
  · simp [runEvents, hfi, hgj, hf.commute hg]
  · obtain rfl | rfl := eq_or_other c k
    · exact emissionTrace_swap hi hj after u
    · exact (emissionTrace_swap hj (by simpa using hi) after u).symm

end Sys2Proof.Machine

/-! PROOFS. The statements of 30_encoding.md. -/

namespace Sys2Proof.Machine

open Sys2Proof

/-! ### The three fields of an event word (R100) -/

@[simp] theorem opField_eventWord (op : BitVec 3) (b : BitVec 1) (arg : BitVec 4) : opField (eventWord op b arg) = op :=
  (BitVec.extractLsb'_append_eq_of_le (by decide)).trans BitVec.extractLsb'_append_eq_left

@[simp] theorem channelField_eventWord (op : BitVec 3) (b : BitVec 1) (arg : BitVec 4) :
    channelField (eventWord op b arg) = b :=
  (BitVec.extractLsb'_append_eq_of_le (by decide)).trans BitVec.extractLsb'_append_eq_right

@[simp] theorem argField_eventWord (op : BitVec 3) (b : BitVec 1) (arg : BitVec 4) : argField (eventWord op b arg) = arg :=
  BitVec.extractLsb'_append_eq_right

/-- An event word is its three fields. -/
theorem eventWord_fields (w : EventWord) : eventWord (opField w) (channelField w) (argField w) = w := by
  unfold eventWord opField channelField argField
  rw [BitVec.extractLsb'_append_extractLsb'_eq_extractLsb' (rfl : 5 = 4 + 1),
    BitVec.extractLsb'_append_extractLsb'_eq_extractLsb' (rfl : 4 = 0 + 4)]
  exact BitVec.extractLsb'_eq_self

/-! ### The operand field (R102, R105 to R110) -/

@[simp] theorem channel_ofCode_code (c : Channel) : Channel.ofCode c.code = c := by cases c <;> rfl

@[simp] theorem channel_code_ofCode (b : BitVec 1) : (Channel.ofCode b).code = b := by revert b; decide

@[simp] theorem dirMode_code_ofCode (m : BitVec 2) : (DirMode.ofCode m).code = m := by revert m; decide

/-- The operand field of STEP (`h ‖ d`, R105) and of SCALE (`0 ‖ k`, R108). -/
def flagIndex (flag : Bool) (index : BitVec 3) : BitVec 4 := BitVec.ofBool flag ++ index

/-- The operand field of DIR (`0 ‖ m`, R107) and of the sequence events (`sub ‖ k`, R109, R110). -/
def twoCodes (hi lo : BitVec 2) : BitVec 4 := hi ++ lo

@[simp] theorem flagIndex_flag (flag : Bool) (index : BitVec 3) : (flagIndex flag index).getLsbD 3 = flag := by
  simp only [flagIndex, BitVec.getLsbD_append]
  simp

@[simp] theorem flagIndex_index (flag : Bool) (index : BitVec 3) : (flagIndex flag index).extractLsb' 0 3 = index :=
  BitVec.extractLsb'_append_eq_right

@[simp] theorem twoCodes_hi (hi lo : BitVec 2) : (twoCodes hi lo).extractLsb' 2 2 = hi :=
  BitVec.extractLsb'_append_eq_left

@[simp] theorem twoCodes_lo (hi lo : BitVec 2) : (twoCodes hi lo).extractLsb' 0 2 = lo :=
  BitVec.extractLsb'_append_eq_right

theorem exists_flagIndex (arg : BitVec 4) : ∃ flag index, arg = flagIndex flag index :=
  ⟨arg.getLsbD 3, arg.extractLsb' 0 3, by revert arg; decide⟩

theorem exists_twoCodes (arg : BitVec 4) : ∃ hi lo, arg = twoCodes hi lo :=
  ⟨arg.extractLsb' 2 2, arg.extractLsb' 0 2, by revert arg; decide⟩

/-! ### The decoder and the encoder by major opcode (R103 to R111) -/

section
variable (b : BitVec 1) (arg : BitVec 4) (flag : Bool) (index : BitVec 3) (hi lo : BitVec 2)

theorem decode_op_nop : decode (eventWord 0#3 b arg) =
    if eventWord 0#3 b arg = 0x00#8 then .ok .nop else .error .nopOperand := by simp [decode]

theorem decode_op_step : decode (eventWord 1#3 b (flagIndex flag index)) = .ok (.step (.ofCode b) index.toFin flag) := by
  simp only [decode, opField_eventWord, channelField_eventWord, argField_eventWord, flagIndex_flag, flagIndex_index]
  rfl

theorem decode_op_attr : decode (eventWord 2#3 b arg) =
    if arg = 0#4 then .ok (.attrcyc (.ofCode b)) else if arg = 2#4 then .ok (.attrdec (.ofCode b))
    else if arg = 3#4 then .ok (.attrinc (.ofCode b)) else .error .attrOperand := by simp [decode]

theorem decode_op_dir : decode (eventWord 3#3 b (twoCodes hi lo)) =
    if hi = 0#2 then .ok (.dir (.ofCode b) (.ofCode lo)) else .error .dirOperand := by simp [decode]

theorem decode_op_scale : decode (eventWord 4#3 b (flagIndex flag index)) =
    if flag then .error .scaleOperand else if index = 7#3 then .error .scaleIndex
    else .ok (.scale (.ofCode b) index) := by
  simp only [decode, opField_eventWord, channelField_eventWord, argField_eventWord, flagIndex_flag, flagIndex_index]
  rfl

theorem decode_op_seq : decode (eventWord 5#3 b (twoCodes hi lo)) =
    if b = 0#1 then .error .seqChannel else decodeSeq hi lo := by simp [decode]

theorem decode_op_tick : decode (eventWord 6#3 b arg) =
    if arg = 0#4 then .ok (.tick (.ofCode b)) else .error .tickOperand := by simp [decode]

theorem decode_op_seven : decode (eventWord 7#3 b arg) = .error .majorOpcode := by simp [decode]

end

theorem encode_step (c : Channel) (d : Degree) (h : Bool) :
    encode (.step c d h) = eventWord 1#3 c.code (flagIndex h (BitVec.ofNat 3 d.val)) := rfl

theorem encode_dir (c : Channel) (m : DirMode) : encode (.dir c m) = eventWord 3#3 c.code (twoCodes 0#2 m.code) := rfl

theorem encode_scale (c : Channel) (k : BitVec 3) : encode (.scale c k) = eventWord 4#3 c.code (flagIndex false k) := rfl

theorem encode_seqrec (k : Fin 4) : encode (.seqrec k) = eventWord 5#3 1#1 (twoCodes 0#2 (BitVec.ofNat 2 k.val)) := rfl

/-- Each row of the opcode table reads back what its event's word was given. -/
theorem decode_encode {i : Instr} (hi : i.wellFormed = true) : decode (encode i) = .ok i := by
  cases i with
  | nop => rfl
  | step c d h =>
    rw [encode_step, decode_op_step]
    simp
  | attrcyc c => simp [encode, decode_op_attr]
  | attrdec c => simp [encode, decode_op_attr]
  | attrinc c => simp [encode, decode_op_attr]
  | dir c m => simp [encode_dir, decode_op_dir, dirMode_ofCode_code]
  | scale c k =>
    have hk : k ≠ 7#3 := by simpa [Instr.wellFormed] using hi
    simp [encode_scale, decode_op_scale, hk]
  | seqrec k => simp [encode_seqrec, decode_op_seq, decodeSeq]
  | seqplay => rfl
  | seqstop => rfl
  | tick c => simp [encode, decode_op_tick]

theorem opcode_cases (op : BitVec 3) :
    op = 0#3 ∨ op = 1#3 ∨ op = 2#3 ∨ op = 3#3 ∨ op = 4#3 ∨ op = 5#3 ∨ op = 6#3 ∨ op = 7#3 := by
  revert op; decide

/-- What the decoder reads from a word of op 5 on channel 2 is well formed and has that word. -/
theorem decodeSeq_eq_ok {hi lo : BitVec 2} {i : Instr} (h : decodeSeq hi lo = .ok i) :
    i.wellFormed = true ∧ encode i = eventWord 5#3 1#1 (twoCodes hi lo) := by
  unfold decodeSeq at h
  split_ifs at h with h0 h1 hk h2 hk <;> cases h
  · simp [encode_seqrec, Instr.wellFormed, h0]
  · subst h1 hk
    decide
  · subst h2 hk
    decide

/-- What the decoder reads from three fields is well formed and has them as its word, one major opcode after another. -/
theorem decode_eventWord_eq_ok {op : BitVec 3} {b : BitVec 1} {arg : BitVec 4} {i : Instr}
    (h : decode (eventWord op b arg) = .ok i) : i.wellFormed = true ∧ encode i = eventWord op b arg := by
  obtain rfl | rfl | rfl | rfl | rfl | rfl | rfl | rfl := opcode_cases op
  · rw [decode_op_nop] at h
    split_ifs at h with h0
    cases h
    exact ⟨rfl, h0.symm⟩
  · obtain ⟨flag, d, rfl⟩ := exists_flagIndex arg
    rw [decode_op_step] at h
    cases h
    simp [encode_step, Instr.wellFormed]
  · rw [decode_op_attr] at h
    split_ifs at h with h0 h2 h3 <;> cases h
    · exact ⟨rfl, by simp [encode, h0]⟩
    · exact ⟨rfl, by simp [encode, h2]⟩
    · exact ⟨rfl, by simp [encode, h3]⟩
  · obtain ⟨sub, k, rfl⟩ := exists_twoCodes arg
    rw [decode_op_dir] at h
    split_ifs at h with h0
    cases h
    simp [encode_dir, Instr.wellFormed, h0]
  · obtain ⟨flag, k, rfl⟩ := exists_flagIndex arg
    rw [decode_op_scale] at h
    split_ifs at h with hflag hk
    cases h
    simp [encode_scale, Instr.wellFormed, hflag, hk]
  · obtain ⟨sub, k, rfl⟩ := exists_twoCodes arg
    rw [decode_op_seq] at h
    split_ifs at h with hb
    obtain rfl : b = 1#1 := b.eq_zero_or_eq_one.resolve_left hb
    exact decodeSeq_eq_ok h
  · rw [decode_op_tick] at h
    split_ifs at h with h0
    cases h
    simp [encode, Instr.wellFormed, h0]
  · rw [decode_op_seven] at h
    cases h

/-- Settles O3, row by row of the opcode table. -/
theorem decodeOfEncodeIsTheInstruction : Obligations.DecodeOfEncodeIsTheInstruction := fun _ => decode_encode

/-- Settles O4: a word is its three fields, and each major opcode is read from its row. -/
theorem legalWordsAreTheEncodedInstructions : Obligations.LegalWordsAreTheEncodedInstructions := by
  intro w i h
  rw [← eventWord_fields w] at h ⊢
  exact decode_eventWord_eq_ok h

/-! ### The pseudo-event MASK (R115) -/

@[simp] theorem setChan_chan_self (s : State) (c : Channel) : s.setChan c (s.chan c) = s := by cases c <;> rfl

@[simp] theorem setChan_setChan (s : State) (c : Channel) (x y : ChannelState) :
    (s.setChan c x).setChan c y = s.setChan c y := by cases c <;> rfl

theorem setChan_sameOutside (s : State) (c : Channel) (x : ChannelState) : SameOutside c s (s.setChan c x) :=
  ⟨setChan_chan_other s c x, setChan_recorder s c x, setChan_input s c x⟩

/-- The mask after the STEPs that give each degree of `ds` its level in `m`. -/
def setDegrees (m : Mask) (ds : List Degree) (n : Mask) : Mask := ds.foldl (fun n d => setHeld n d (held m d)) n

theorem held_setDegrees (m : Mask) (ds : List Degree) (n : Mask) (i : Degree) :
    held (setDegrees m ds n) i = if i ∈ ds then held m i else held n i := by
  induction ds generalizing n with
  | nil => simp [setDegrees]
  | cons d ds ih =>
    have hd := ih (setHeld n d (held m d))
    rw [held_setHeld] at hd
    simp only [setDegrees, List.foldl_cons, List.mem_cons] at hd ⊢
    rw [hd]
    by_cases hi : i = d <;> simp [hi]

/-- Every degree given its level in `m`, the mask is `m`. -/
theorem setDegrees_all (m n : Mask) : setDegrees m degrees n = m :=
  mask_ext fun i => by rw [held_setDegrees, if_pos (mem_degrees i)]

/-- A run of STEPs writes the mask of its channel and nothing else. -/
theorem runEvents_steps (c : Channel) (m : Mask) (ds : List Degree) (s : State) :
    runEvents (ds.map fun d => .step c d (held m d)) s =
      .next (s.setChan c { s.chan c with mask := setDegrees m ds (s.chan c).mask }) := by
  induction ds generalizing s with
  | nil => exact congrArg _ (setChan_chan_self s c).symm
  | cons d ds ih => simp [runEvents, exec, execStep, ih, setDegrees]

/-- Settles O59: the eight STEPs write every bit of the mask. -/
theorem maskPseudoEventSetsTheMask : Obligations.MaskPseudoEventSetsTheMask := by
  intro c m s
  refine ⟨_, runEvents_steps c m degrees s, ?_, setChan_sameOutside s c _⟩
  rw [setChan_chan, setDegrees_all]

/-! ### The assembler (R114, R115) -/

/-- What an assembly gives, where it is no error, are events that have a word. -/
def GivesWellFormed (o : Option (List Instr)) : Prop := ∀ is, o = some is → ∀ i ∈ is, i.wellFormed = true

namespace GivesWellFormed

theorem of_all {is : List Instr} (h : ∀ i ∈ is, i.wellFormed = true) : GivesWellFormed (some is) := by
  rintro _ ⟨⟩
  exact h

theorem single {i : Instr} (h : i.wellFormed = true) : GivesWellFormed (some [i]) :=
  of_all fun _ hj => List.mem_singleton.mp hj ▸ h

theorem error : GivesWellFormed none := by
  rintro _ ⟨⟩

/-- Reading an operand first gives no other events. -/
theorem bind {α : Type} {o : Option α} {f : α → Option (List Instr)} (h : ∀ a, GivesWellFormed (f a)) :
    GivesWellFormed (o >>= f) := by
  intro is his
  obtain ⟨a, -, ha⟩ := Option.bind_eq_some_iff.mp his
  exact h a is ha

end GivesWellFormed

/-- An index below 7 is not the reserved one. -/
theorem scale_wellFormed (c : Channel) (k : Fin 7) : (Instr.scale c (BitVec.ofNat 3 k.val)).wellFormed = true := by
  change (BitVec.ofNat 3 k.val != 7#3) = true
  revert k
  decide

theorem maskEvents_wellFormed (c : Channel) (m : Mask) : ∀ i ∈ maskEvents c m, i.wellFormed = true :=
  List.forall_mem_map.mpr fun _ _ => rfl

theorem replicate_wellFormed (n : Nat) {j : Instr} (hj : j.wellFormed = true) :
    ∀ i ∈ List.replicate n j, i.wellFormed = true := fun _ hi => List.eq_of_mem_replicate hi ▸ hj

/-- The operands of every mnemonic are read in the ranges of its row, one case per line of the definition. -/
theorem assembleOperands_wellFormed (known : Channel → Option Attr) (m : Mnemonic) (ops : List (List Char)) :
    GivesWellFormed (assembleOperands known m ops) := by
  unfold assembleOperands
  split
  · exact .single rfl
  · exact .bind fun _ => .bind fun _ => .bind fun _ => .single rfl
  · exact .bind fun _ => .single rfl
  · exact .bind fun _ => .single rfl
  · exact .bind fun _ => .single rfl
  · exact .bind fun _ => .bind fun _ => .single rfl
  · -- SCALE: the index is read below 7
    exact .bind fun c => .bind fun k => .single (scale_wellFormed c k)
  · exact .bind fun _ => .single rfl
  · exact .single rfl
  · exact .single rfl
  · exact .bind fun _ => .single rfl
  · exact .bind fun _ => .bind fun _ => .single rfl
  · exact .bind fun _ => .bind fun _ => .single rfl
  · -- MASK
    exact .bind fun c => .bind fun m => .of_all (maskEvents_wellFormed c _)
  · -- TICKS
    exact .bind fun n => .bind fun _ => .of_all (replicate_wellFormed n rfl)
  · -- ATTRSEL
    exact .bind fun _ => .bind fun _ => .bind fun _ => .bind fun _ => .of_all (replicate_wellFormed _ rfl)
  · exact .error

theorem assembleLine_wellFormed (known : Channel → Option Attr) (line : List Char) :
    GivesWellFormed (assembleLine known line) := by
  unfold assembleLine
  split
  · exact .of_all (List.forall_mem_nil _)
  · exact .bind fun _ => assembleOperands_wellFormed known _ _

/-- Settles O60: a line gives well-formed events, whose words decode to them. -/
theorem assemblerNeverProducesAReservedWord : Obligations.AssemblerNeverProducesAReservedWord :=
  fun known line is h i hi => decode_encode (assembleLine_wellFormed known line is h i hi)

/-! ### Reserved words (R112) -/

theorem decode_toOption_eq_none {w : EventWord} (h : (decode w).toOption = none) : ∃ r, decode w = .error r := by
  cases hd : decode w with
  | ok i => simp [hd, Except.toOption] at h
  | error r => exact ⟨r, rfl⟩

theorem execWord_of_error {w : EventWord} {r : Reserved} (h : decode w = .error r) (s : State) :
    execWord w s = .next s := by
  simp only [execWord, h]
  rfl

theorem execWord_of_ok {w : EventWord} {i : Instr} (h : decode w = .ok i) (s : State) : execWord w s = exec i s := by
  simp only [execWord, h]

/-- Settles O6: the decoder on all 256 words is the list of R112, and a reserved word runs as NOP. -/
theorem reservedWordsAreIgnored : Obligations.ReservedWordsAreIgnored := by
  refine ⟨by decide +kernel, by decide +kernel, by decide +kernel, fun w s h => ?_⟩
  obtain ⟨r, hr⟩ := decode_toOption_eq_none h
  exact execWord_of_error hr s

/-! ### The cycle that presents one word (R101, R303) -/

/-- A cycle that presents one word and no pulse runs the word, the ports cleared. -/
theorem step_wordCycle {s : State} {w : EventWord} {rest : List Pins} (h : s.input = wordCycle w :: rest) :
    step s = execWord w { s with input := rest }.clearPorts := by
  simp only [step, nextCycle, h]
  rfl

theorem decodeTableWord_eq_some {nbits w : Nat} {i : Instr} (h : decodeTableWord nbits w = some i) :
    decode (tableWord nbits w) = .ok i := by
  unfold decodeTableWord at h
  cases hd : decode (tableWord nbits w) with
  | ok j => simpa [hd, Except.toOption] using h
  | error r => simp [hd, Except.toOption] at h

/-- Settles O7: the step is the word's execution, and a legal word's execution is its event's. -/
theorem stepRunsTheDecodedWord : Obligations.StepRunsTheDecodedWord := by
  refine ⟨fun s w i rest hin hd => ?_, fun s w i hd => ?_⟩
  · rw [step_wordCycle hin, execWord_of_ok hd]
  · have hin : (s.withFetchWord 8 w).input = wordCycle (tableWord 8 w) :: s.input := rfl
    rw [step_wordCycle hin, execWord_of_ok (decodeTableWord_eq_some hd)]
    rfl

/-! ### The level outputs (R101) -/

/-- A pin is 1 exactly when its register is set. -/
theorem ofBool_eq_one (b : Bool) : BitVec.ofBool b = 1#1 ↔ b = true := BitVec.ofBool_eq_iff_eq (b' := true)

/-- Settles O56: each level is its register, the two flags as one bit. -/
theorem levelOutputsShowTheRegisters : Obligations.LevelOutputsShowTheRegisters :=
  fun _ _ => ⟨rfl, ofBool_eq_one _, ofBool_eq_one _, rfl, rfl⟩

end Sys2Proof.Machine

/-! PROOFS. The statements of 40_pitch_table.md. -/

namespace Sys2Proof.Machine

open Sys2Proof

/-! ### ScaleROM (R131) -/

theorem scaleCode_toNat (k : ScaleMode) : (scaleCode k).toNat = (scaleIndex k).val := by cases k <;> rfl

/-- `ION` as the list of R131. -/
theorem ionianRow_eq_getElem? (j : Fin 7) :
    some (ionianRow j) = ([.C, .D, .E, .F, .G, .A, .B] : List PitchClass)[j.val]? := by
  revert j
  decide

theorem scaleRom_asc (k : ScaleMode) (i : Degree) :
    scaleRom k .asc i = (ionianRow (Fin.ofNat 7 (i.val + (scaleCode k).toNat)), .natural) := by
  rw [scaleCode_toNat]
  rfl

/-- Settles O29: an ascending entry is the Ionian row's at the rotated index, a descending one the mirrored entry. -/
theorem scaleRomHoldsTheRotatedRows : Obligations.ScaleRomHoldsTheRotatedRows := by
  refine fun k i => ⟨?_, ?_⟩
  · have hrow := ionianRow_eq_getElem? (Fin.ofNat 7 (i.val + (scaleCode k).toNat))
    rw [Fin.val_ofNat] at hrow
    rw [scaleRom_asc, ← hrow, Option.map_some]
  · exact (scaleRom_degreeAt k .desc i).trans (congrArg (scaleRom k .asc) (Fin.ext (mirror_val i)))

/-! ### PitchROM (R133, R134) -/

/-- Every letter but C and F has a flat entry of its own. -/
theorem pitchEntry_of_ne {p : PitchClass} (hC : p ≠ .C) (hF : p ≠ .F) (a : Accidental) : pitchEntry p a = a := by
  cases p with
  | C => exact absurd rfl hC
  | F => exact absurd rfl hF
  | A | B | D | E | G => rfl

/-- Settles O30, from the entry each letter reads. -/
theorem flatsOfCAndFReadTheNatural : Obligations.FlatsOfCAndFReadTheNatural := by
  refine fun table o => ⟨fun _ => rfl, fun _ => rfl, fun p a hC hF => ?_⟩
  rw [pitchRom, pitchEntry_of_ne hC hF]

end Sys2Proof.Machine

/-! PROOFS. The statements of 41_engine.md. -/

namespace Sys2Proof.Machine

open Sys2Proof

/-! ### Selection and the ranges (R151, R152, R154, R158) -/

/-- Settles O32, from the engine's law over an all-zero mask. -/
theorem emptyMaskRestsAndIdles : Obligations.EmptyMaskRestsAndIdles := fun split ctl e => engine_zero split ctl e

theorem bidirectional_iff (dir : DirMode) : bidirectional dir = true ↔ dir = .upDown ∨ dir = .downUp := by
  cases dir <;> decide

theorem isSingle_iff (m : Mask) (ctl : Control) : isSingle m ctl = true ↔ popcount m = 1 ∧ ctl.stepCount = 1 := by
  simp [isSingle]

theorem isAlt_iff (m : Mask) (ctl : Control) :
    isAlt m ctl = true ↔ bidirectional ctl.dir = true ∧ ctl.stepCount = 1 ∧ popcount m ≤ 2 := by
  simp [isAlt, and_assoc]

theorem isCompose_iff (m : Mask) (ctl : Control) :
    isCompose m ctl = true ↔ bidirectional ctl.dir = true ∧ isAlt m ctl = false := by simp [isCompose]

theorem isCompose_false_of_single {m : Mask} {ctl : Control} (h : isSingle m ctl = true) :
    isCompose m ctl = false := by
  by_contra hc
  rw [isSingle_false_of_compose (by simpa using hc)] at h
  cases h

theorem isCompose_false_of_alt {m : Mask} {ctl : Control} (h : isAlt m ctl = true) : isCompose m ctl = false := by
  simp [isCompose, h]

/-- Settles O33, each case of an invocation from the law of its condition. -/
theorem selectionOfDirectionAndCase : Obligations.SelectionOfDirectionAndCase := by
  intro m ctl e
  refine ⟨fun h => ?_, fun h => ?_, fun h => ?_, fun h => ?_, isSingle_iff m ctl, ?_, ?_,
    fun hc => select_noChop hc e, fun hc => ?_, _, _, _, rfl⟩
  · simp [select, selectPhase, h]
  · simp [select, selectPhase, h]
  · simp [select, selectPhase, h]
  · simp [select, selectPhase, h]
  · rw [isAlt_iff, bidirectional_iff]
  · rw [isCompose_iff, bidirectional_iff]
  · simp [select, hc]

/-- Settles O34: the two equations are the definition's branches, and a `run` in range has an offset below `stepCount`. -/
theorem normalisedRunIsInRange : Obligations.NormalisedRunIsInRange := by
  intro S run hS
  obtain ⟨hlow, hhigh⟩ := normaliseRun_desc_range hS run
  exact ⟨rfl, normaliseRun_asc_lt hS run, rfl, hlow, hhigh,
    fun d => Nat.le_sub_one_of_lt (runInRange_normalised hS d run).offset_lt⟩

theorem offset_eq (d : Direction) (run : Nat) : offset d run = match d with | .asc => run | .desc => run - 1 := by
  cases d <;> rfl

theorem validOctave_eq_none_iff (split : Fin 9) (ctl : Control) (off : Nat) (i : Degree) :
    validOctave split ctl off i = none ↔ (i = 7 ∧ ctl.octave + off = 8) ∨ 8 < stopOctave split ctl off i := by
  unfold validOctave
  by_cases hi : i = 7 ∧ ctl.octave + off = 8
  · simp [hi]
  · by_cases ho : stopOctave split ctl off i < 9
    · simp only [hi, ho, if_false, dif_pos, reduceCtorEq, false_or, false_iff]
      omega
    · simp only [hi, ho, if_false, dif_neg, not_false_eq_true, false_or, true_iff]
      omega

theorem val_of_validOctave {split : Fin 9} {ctl : Control} {off : Nat} {i : Degree} {o : Octave}
    (h : validOctave split ctl off i = some o) : o.val = stopOctave split ctl off i := by
  unfold validOctave at h
  split at h
  · cases h
  · split at h
    · cases h
      rfl
    · cases h

/-- Settles O35, from the two laws of a stop's octave. -/
theorem stopOctaveAndValidity : Obligations.StopOctaveAndValidity := fun split ctl d run i =>
  ⟨offset_eq d run, validOctave_eq_none_iff split ctl (offset d run) i, fun _ h => val_of_validOctave h⟩

/-! ### The end of a pass (R160) -/

/-- The sweep goes on: an ascending pass counts up. -/
theorem passEnd_asc_counts {ctl : Control} {x : Scan} (compose : Bool) (hd : x.d = .asc)
    (hr : x.eng.run + 1 < ctl.stepCount) :
    passEnd ctl compose x = { x with eng := { x.eng with run := x.eng.run + 1 } } := by
  simp [passEnd, ascPassEnd, hd, hr]

/-- The end of an ascending sweep in composition. -/
theorem passEnd_asc_flips {ctl : Control} {x : Scan} (hd : x.d = .asc) (hr : ctl.stepCount ≤ x.eng.run + 1) :
    passEnd ctl true x =
      { x with
        eng := { x.eng with run := ctl.stepCount, chopTop := true, phase := .desc }
        d := .desc
        phr := x.phr || decide (ctl.dir = .downUp) } := by
  simp only [passEnd, ascPassEnd, hd, Nat.not_lt.mpr hr, if_false, if_true]
  rfl

/-- The end of an ascending sweep outside composition. -/
theorem passEnd_asc_wraps {ctl : Control} {x : Scan} (hd : x.d = .asc) (hr : ctl.stepCount ≤ x.eng.run + 1) :
    passEnd ctl false x = { x with eng := { x.eng with run := 0 } } := by
  simp [passEnd, ascPassEnd, hd, Nat.not_lt.mpr hr]

/-- The sweep goes on: a descending pass counts down. -/
theorem passEnd_desc_counts {ctl : Control} {x : Scan} (compose : Bool) (hd : x.d = .desc) (hr : x.eng.run - 1 ≠ 0) :
    passEnd ctl compose x = { x with eng := { x.eng with run := x.eng.run - 1 } } := by
  simp [passEnd, descPassEnd, hd, hr]

/-- The end of a descending sweep in composition. -/
theorem passEnd_desc_flips {ctl : Control} {x : Scan} (hd : x.d = .desc) (hr : x.eng.run - 1 = 0) :
    passEnd ctl true x =
      { x with
        eng := { x.eng with run := 0, chopBottom := true, phase := .asc }
        d := .asc
        phr := x.phr || decide (ctl.dir = .upDown) } := by
  simp only [passEnd, descPassEnd, hd, hr, ne_eq, not_true_eq_false, if_false, if_true]
  rfl

/-- The end of a descending sweep outside composition. -/
theorem passEnd_desc_wraps {ctl : Control} {x : Scan} (hd : x.d = .desc) (hr : x.eng.run - 1 = 0) :
    passEnd ctl false x = { x with eng := { x.eng with run := ctl.stepCount } } := by
  simp [passEnd, descPassEnd, hd, hr]

/-- Settles O36: in each direction the sweep goes on, or ends in composition or outside it. -/
theorem passEndCountsOnePass : Obligations.PassEndCountsOnePass := by
  intro ctl compose e i phr
  constructor
  · split
    · rename_i hr
      cases compose
      · exact passEnd_asc_wraps rfl hr
      · exact passEnd_asc_flips rfl hr
    · rename_i hr
      exact passEnd_asc_counts compose rfl (Nat.not_le.mp hr)
  · split
    · rename_i hr
      cases compose
      · exact passEnd_desc_wraps rfl hr
      · exact passEnd_desc_flips rfl hr
    · rename_i hr
      exact passEnd_desc_counts compose rfl hr

/-- The `run` a pass end leaves outside composition. -/
theorem passEnd_plain_run (ctl : Control) (x : Scan) :
    (passEnd ctl false x).eng.run =
      match x.d with
      | .asc => if x.eng.run + 1 < ctl.stepCount then x.eng.run + 1 else 0
      | .desc => if x.eng.run - 1 = 0 then ctl.stepCount else x.eng.run - 1 := by
  cases hd : x.d
  · by_cases hr : x.eng.run + 1 < ctl.stepCount
    · simp [passEnd_asc_counts false hd hr, hr]
    · simp [passEnd_asc_wraps hd (Nat.not_lt.mp hr), hr]
  · by_cases hr : x.eng.run - 1 = 0
    · simp [passEnd_desc_wraps hd hr, hr]
    · simp [passEnd_desc_counts false hd hr, hr]

/-! ### The scan (R153 to R157, R170) -/

/-- Settles O37: in either case of the scan the index it stops on is held. -/
theorem scanStopsOnAHeldIndex : Obligations.ScanStopsOnAHeldIndex := by
  intro m ctl compose x hm
  obtain ⟨k, ⟨-, hk, -⟩, h⟩ | ⟨-, -, k, ⟨-, hk, -⟩, h⟩ := scanLoop_cases hm ctl compose x <;> rw [h]
  · exact hk
  · exact hk

/-- Where the scan starts: at the index after the cursor, with the toggle cleared and `run` normalised. -/
def scanFrom (ctl : Control) (d : Direction) (e : EngineState) : Scan :=
  { eng := { e with snt := false, run := normaliseRun ctl.stepCount d e.run }
    d := d
    i := scanStart e.cursor
    phr := false }

theorem findStop_eq_scanLoop (m : Mask) (ctl : Control) (compose : Bool) (d : Direction) (e : EngineState) :
    findStop m ctl compose d e = scanLoop m ctl compose scanBound (scanFrom ctl d e) := rfl

/-- From index 0 only a stop on index 0 itself keeps the wrap. -/
theorem wrapAfter_zero (k : Degree) (wrap : Bool) : wrapAfter 0 k wrap = (wrap && decide (k = 0)) := by
  by_cases h : k = 0 <;> simp [wrapAfter, h]

/-- The scan where the pass it is in holds an index from its start on. -/
theorem findStop_in_pass {m : Mask} {d : Direction} {e : EngineState} {k : Degree}
    (hk : FirstHeldFrom m d (scanStart e.cursor) k) (ctl : Control) (compose : Bool) :
    findStop m ctl compose d e =
      ⟨{ e with
          snt := false
          run := normaliseRun ctl.stepCount d e.run
          octaveWrap := wrapAfter (scanStart e.cursor) k e.octaveWrap }, d, k, false⟩ :=
  scanLoop_ascends ctl compose scanBound (scanFrom ctl d e) hk (by have := k.isLt; simp only [scanBound]; omega)

/-- The scan where the rest of its pass holds nothing: the pass ends and it stops at the first held index of the next. -/
theorem findStop_next_pass {m : Mask} (hm : m ≠ 0) (ctl : Control) (compose : Bool) {d : Direction} {e : EngineState}
    (hn : ∀ j : Degree, (scanStart e.cursor).val ≤ j.val → held (scanMask d m) j = false) :
    ∃ k, FirstHeldFrom m (passEnd ctl compose (scanFrom ctl d e)).d 0 k ∧
      findStop m ctl compose d e =
        { passEnd ctl compose (scanFrom ctl d e) with
          i := k
          eng := { (passEnd ctl compose (scanFrom ctl d e)).eng with octaveWrap := wrapAfter 0 k e.octaveWrap } } := by
  obtain ⟨k, ⟨hle, hk, -⟩, -⟩ | ⟨-, -, h⟩ := scanLoop_cases hm ctl compose (scanFrom ctl d e)
  · cases (hn k hle).symm.trans hk
  · exact h

/-- Settles O39, case by case; a pass end does not look at the index. -/
theorem scanGoesOnThroughTheEndOfAPass : Obligations.ScanGoesOnThroughTheEndOfAPass := by
  intro m ctl compose d e hm i e0 y
  refine ⟨fun k hle hk hfirst => findStop_in_pass ⟨hle, hk, hfirst⟩ ctl compose, fun hn => ?_⟩
  have hy : y = { passEnd ctl compose (scanFrom ctl d e) with i := 7 } :=
    passEnd_setIndex ctl compose (scanFrom ctl d e) 7
  obtain ⟨k, ⟨-, hk, hfirst⟩, h⟩ := findStop_next_pass hm ctl compose hn
  refine ⟨k, ?_, ?_, ?_⟩
  · rw [hy]
    exact hk
  · rw [hy]
    exact fun j hj => hfirst j (Nat.zero_le _) hj
  · rw [h, hy, wrapAfter_zero]

/-- `n` steps on in the same pass. -/
theorem val_add_steps {i : Degree} {n : Nat} (h : i.val + n < 8) : (i + Fin.ofNat 8 n).val = i.val + n := by
  rw [Fin.val_add, Fin.val_ofNat, Nat.add_mod_mod, Nat.mod_eq_of_lt h]

/-- `n` steps on, past index 7. -/
theorem val_add_steps_wrapped {i : Degree} {n : Nat} (h8 : 8 ≤ i.val + n) (h16 : i.val + n < 16) :
    (i + Fin.ofNat 8 n).val = i.val + n - 8 := by
  rw [Fin.val_add, Fin.val_ofNat, Nat.add_mod_mod]
  omega

/-- Settles O38: within its pass the scan takes `k - i` steps; past index 7 it takes `8 - i + k`, and the `run` is that of
one pass end. -/
theorem scanFindsTheNextHeldIndex : Obligations.ScanFindsTheNextHeldIndex := by
  intro m ctl d e hm x r
  have hi := (scanStart e.cursor).isLt
  obtain ⟨k, hk⟩ | hn := firstHeldFrom_or_none m d (scanStart e.cursor)
  · have hx : x = _ := findStop_in_pass hk ctl false
    obtain ⟨hle, hheld, hfirst⟩ := hk
    rw [hx]
    refine ⟨rfl, rfl, k.val - (scanStart e.cursor).val, by omega, ?_, hheld, fun j hj => ?_, ?_⟩
    · exact Fin.ext (by rw [val_add_steps (by omega)]; simp only; omega)
    · have hv : (scanStart e.cursor + Fin.ofNat 8 j).val = (scanStart e.cursor).val + j := val_add_steps (by omega)
      exact hfirst _ (by omega) (by omega)
    · rw [if_pos (by omega)]
  · obtain ⟨k, ⟨-, hheld, hfirst⟩, h⟩ := findStop_next_pass hm ctl false hn
    have hx : x = _ := h
    obtain ⟨run, hp⟩ := passEnd_plain ctl (scanFrom ctl d e)
    have hd : (passEnd ctl false (scanFrom ctl d e)).d = d := by rw [hp]; rfl
    rw [hd] at hheld hfirst
    have hki : k.val < (scanStart e.cursor).val := by
      by_contra hle
      rw [hn k (Nat.not_lt.mp hle)] at hheld
      cases hheld
    rw [hx]
    refine ⟨hd, by rw [hp]; rfl, 8 - (scanStart e.cursor).val + k.val, by omega, ?_, hheld, fun j hj => ?_, ?_⟩
    · exact Fin.ext (by rw [val_add_steps_wrapped (by omega) (by omega)]; simp only; omega)
    · by_cases hj8 : (scanStart e.cursor).val + j < 8
      · exact hn _ (by rw [val_add_steps hj8]; omega)
      · have hv := val_add_steps_wrapped (i := scanStart e.cursor) (n := j) (by omega) (by omega)
        exact hfirst _ (Nat.zero_le _) (by omega)
    · rw [if_neg (by omega)]
      exact passEnd_plain_run ctl (scanFrom ctl d e)

/-! ### An invocation over a non-zero mask (R150, R168) -/

/-- The EngineState an invocation leaves: the scanner's, with phase and cursor mirrored in direct alternation. -/
theorem engine_eng (split : Fin 9) {m : Mask} (ctl : Control) (e : EngineState) (hm : m ≠ 0) :
    (engine split m ctl e).1 =
      { (scanner split m ctl (select m ctl e)).1 with
        phase :=
          if isAlt m ctl then flip (scanner split m ctl (select m ctl e)).1.phase
          else (scanner split m ctl (select m ctl e)).1.phase
        cursor :=
          if isAlt m ctl then (scanner split m ctl (select m ctl e)).1.cursor.map mirror
          else (scanner split m ctl (select m ctl e)).1.cursor } := by
  rw [engine_nonzero split ctl e hm]
  cases isAlt m ctl <;> rfl

theorem engine_emission (split : Fin 9) {m : Mask} (ctl : Control) (e : EngineState) (hm : m ≠ 0) :
    (engine split m ctl e).2 = (scanner split m ctl (select m ctl e)).2 := by rw [engine_nonzero split ctl e hm]

/-- The stop of an invocation's own scan, outside the single-note case. -/
def invocationStop (m : Mask) (ctl : Control) (e : EngineState) : Scan :=
  findStop m ctl (isCompose m ctl) (select m ctl e).phase (select m ctl e)

theorem scanner_select_regular (split : Fin 9) {m : Mask} {ctl : Control} (e : EngineState)
    (hs : isSingle m ctl = false) :
    scanner split m ctl (select m ctl e) =
      ((finishStop m ctl (isCompose m ctl) (invocationStop m ctl e)).eng,
        ⟨stopOutput split ctl (isCompose m ctl) (invocationStop m ctl e).eng (invocationStop m ctl e).d
            (invocationStop m ctl e).i,
          (finishStop m ctl (isCompose m ctl) (invocationStop m ctl e)).phr⟩) :=
  scanner_regular split (select m ctl e) hs

/-- What an invocation outside the single-note case answers. -/
theorem engine_regular_emission (split : Fin 9) {m : Mask} {ctl : Control} (e : EngineState) (hm : m ≠ 0)
    (hs : isSingle m ctl = false) :
    (engine split m ctl e).2 =
      ⟨stopOutput split ctl (isCompose m ctl) (invocationStop m ctl e).eng (invocationStop m ctl e).d
          (invocationStop m ctl e).i,
        (finishStop m ctl (isCompose m ctl) (invocationStop m ctl e)).phr⟩ := by
  rw [engine_emission split ctl e hm, scanner_select_regular split e hs]

@[simp] theorem finishStop_cursor (m : Mask) (ctl : Control) (compose : Bool) (x : Scan) :
    (finishStop m ctl compose x).eng.cursor = some x.i := by
  unfold finishStop
  split <;> simp [armWrap, consumeFlags]

@[simp] theorem finishStop_snt (m : Mask) (ctl : Control) (compose : Bool) (x : Scan) :
    (finishStop m ctl compose x).eng.snt = x.eng.snt := by
  unfold finishStop
  split <;> simp [armWrap, consumeFlags]

/-- What an invocation outside the single-note case leaves. -/
theorem engine_regular_eng (split : Fin 9) {m : Mask} {ctl : Control} (e : EngineState) (hm : m ≠ 0)
    (hs : isSingle m ctl = false) :
    (engine split m ctl e).1 =
      { (finishStop m ctl (isCompose m ctl) (invocationStop m ctl e)).eng with
        phase :=
          if isAlt m ctl then flip (finishStop m ctl (isCompose m ctl) (invocationStop m ctl e)).eng.phase
          else (finishStop m ctl (isCompose m ctl) (invocationStop m ctl e)).eng.phase
        cursor :=
          some (if isAlt m ctl then mirror (invocationStop m ctl e).i else (invocationStop m ctl e).i) } := by
  rw [engine_eng split ctl e hm, scanner_select_regular split e hs]
  cases isAlt m ctl <;> simp

/-- A stop below index 7 spends the flags that apply to it and ends no pass. -/
theorem finishStop_below_seven (m : Mask) (ctl : Control) (compose : Bool) {x : Scan} (h : x.i ≠ 7) :
    finishStop m ctl compose x = { x with eng := consumeFlags { x.eng with cursor := some x.i } compose x.d x.i } := by
  simp [finishStop, h]

/-- A stop on index 7, before the pass end it brings: the flags spent and the wrap armed. -/
def armedStop (m : Mask) (compose : Bool) (x : Scan) : Scan :=
  { x with
    eng := armWrap (scanMask x.d m) (consumeFlags { x.eng with cursor := some x.i } compose x.d x.i) }

@[simp] theorem armedStop_chopTop (m : Mask) (compose : Bool) (x : Scan) :
    (armedStop m compose x).eng.chopTop = (x.eng.chopTop && !(compose && decide (x.d = .desc))) := rfl

@[simp] theorem armedStop_chopBottom (m : Mask) (compose : Bool) (x : Scan) :
    (armedStop m compose x).eng.chopBottom = (x.eng.chopBottom && !(compose && decide (x.d = .asc))) := rfl

/-- A stop on index 7 then ends the pass. -/
theorem finishStop_seven (m : Mask) (ctl : Control) (compose : Bool) {x : Scan} (h : x.i = 7) :
    finishStop m ctl compose x = passEnd ctl compose (armedStop m compose x) := by
  unfold finishStop
  rw [if_pos h]
  rfl

/-- A stop spends the wrap on index 0 and arms it on index 7. -/
theorem finishStop_octaveWrap (m : Mask) (ctl : Control) (compose : Bool) (x : Scan) :
    (finishStop m ctl compose x).eng.octaveWrap =
      if x.i = 7 then x.eng.octaveWrap || held (scanMask x.d m) 0 else x.eng.octaveWrap && decide (x.i ≠ 0) := by
  by_cases h : x.i = 7
  · simp [finishStop_seven m ctl compose h, armedStop, armWrap, consumeFlags, h]
  · simp [finishStop_below_seven m ctl compose h, consumeFlags, h]

/-! ### What a scan keeps -/

/-- The scan clears the single-note toggle. -/
theorem findStop_snt {m : Mask} (hm : m ≠ 0) (ctl : Control) (compose : Bool) (d : Direction) (e : EngineState) :
    (findStop m ctl compose d e).eng.snt = false := by
  rw [findStop_eq_scanLoop]
  obtain ⟨k, -, h⟩ | ⟨-, -, k, -, h⟩ := scanLoop_cases hm ctl compose (scanFrom ctl d e) <;> rw [h]
  · rfl
  · exact passEnd_snt ctl compose (scanFrom ctl d e)

/-- Outside composition the scan keeps its direction, the phase, the chop flags and raises no phrase. -/
theorem findStop_plain {m : Mask} (hm : m ≠ 0) (ctl : Control) (d : Direction) (e : EngineState) :
    ∃ k run wrap, findStop m ctl false d e =
      ⟨{ e with snt := false, run := run, octaveWrap := wrap }, d, k, false⟩ := by
  rw [findStop_eq_scanLoop]
  obtain ⟨k, -, h⟩ | ⟨-, -, k, -, h⟩ := scanLoop_cases hm ctl false (scanFrom ctl d e)
  · exact ⟨k, _, _, h⟩
  · obtain ⟨run, hp⟩ := passEnd_plain ctl (scanFrom ctl d e)
    rw [hp] at h
    exact ⟨k, run, _, h⟩

theorem invocationStop_held {m : Mask} (hm : m ≠ 0) (ctl : Control) (e : EngineState) :
    held m (degreeAt (invocationStop m ctl e).d (invocationStop m ctl e).i) = true := by
  rw [← held_scanMask]
  exact scanStopsOnAHeldIndex m ctl _ (scanFrom ctl (select m ctl e).phase (select m ctl e)) hm

/-- The stop's `run` is in range for its direction, the scan having started from a normalised one. -/
theorem invocationStop_runInRange {m : Mask} (hm : m ≠ 0) {ctl : Control} (hS : 1 ≤ ctl.stepCount) (e : EngineState) :
    RunInRange ctl.stepCount (invocationStop m ctl e).d (invocationStop m ctl e).eng.run :=
  scanLoop_runInRange hm hS _ (runInRange_normalised hS _ _)

theorem invocationStop_d_of_plain {m : Mask} (hm : m ≠ 0) {ctl : Control} (hc : isCompose m ctl = false)
    (e : EngineState) : (invocationStop m ctl e).d = selectPhase ctl.dir e.cursor e.phase := by
  obtain ⟨k, run, wrap, h⟩ := findStop_plain hm ctl (select m ctl e).phase (select m ctl e)
  rw [invocationStop, hc, h]
  rfl

/-- Settles O40, from the laws of the scan and of the stop. -/
theorem regularInvocationLandsOnAHeldDegree : Obligations.RegularInvocationLandsOnAHeldDegree := by
  intro split m ctl e hm hs x
  have heng := engine_regular_eng split e hm hs
  refine ⟨?_, invocationStop_held hm ctl e, ?_, fun hc => invocationStop_d_of_plain hm hc e⟩
  · rw [heng]
    exact (finishStop_snt ..).trans (findStop_snt hm ctl _ _ _)
  · rw [heng]
    rfl

/-! ### What a stop answers (R158, R159) -/

/-- The flags that silence a stop. -/
theorem stop_suppressed_iff (e : EngineState) (compose : Bool) (d : Direction) (i : Degree) :
    (wrapSuppresses e i || chopSuppresses e compose d) = true ↔
      (i = 0 ∧ e.octaveWrap = true) ∨ (compose = true ∧ d = .desc ∧ e.chopTop = true) ∨
        (compose = true ∧ d = .asc ∧ e.chopBottom = true) := by
  cases d <;> simp [wrapSuppresses, chopSuppresses]

theorem stopOutput_suppressed (split : Fin 9) (ctl : Control) {compose : Bool} {e : EngineState} {d : Direction}
    {i : Degree} (h : (wrapSuppresses e i || chopSuppresses e compose d) = true) :
    stopOutput split ctl compose e d i = .none := by simp only [stopOutput, h, if_true]

theorem stopOutput_unsuppressed (split : Fin 9) (ctl : Control) {compose : Bool} {e : EngineState} {d : Direction}
    {i : Degree} (h : ¬(wrapSuppresses e i || chopSuppresses e compose d) = true) :
    stopOutput split ctl compose e d i = sound split ctl d (offset d e.run) i := by
  simp only [stopOutput, h, if_false, Bool.false_eq_true]

/-- Settles O41: a suppressed stop is silent, and any other sounds exactly where its octave is valid. -/
theorem stopAnswersItsNote : Obligations.StopAnswersItsNote := by
  intro split m ctl e hm hs x off oct suppressed invalid
  have hout : (engine split m ctl e).2.out = stopOutput split ctl (isCompose m ctl) x.eng x.d x.i :=
    congrArg Emission.out (engine_regular_emission split e hm hs)
  have hoff : offset x.d x.eng.run = off := offset_eq x.d x.eng.run
  have hsupp := stop_suppressed_iff x.eng (isCompose m ctl) x.d x.i
  have hsound (hn : ¬suppressed) : (engine split m ctl e).2.out = sound split ctl x.d off x.i := by
    rw [hout, stopOutput_unsuppressed split ctl (fun h => hn (hsupp.mp h)), hoff]
  refine ⟨fun h => ?_, fun hn hv => ?_⟩
  · by_cases hn : suppressed
    · rw [hout, stopOutput_suppressed split ctl (hsupp.mpr hn)]
    · rw [hsound hn]
      exact sound_invalid split ctl x.d off x.i (h.resolve_left hn)
  · rw [hsound hn]
    exact sound_valid split ctl x.d off x.i hv

/-- A Note that sounds has the fields of its stop. -/
theorem eq_of_sound_eq_note {split : Fin 9} {ctl : Control} {d : Direction} {off : Nat} {i : Degree} {p : PitchClass}
    {a : Accidental} {o : Octave} {dur : Nat} {deg : Degree} (h : sound split ctl d off i = .note p a o dur deg) :
    (p, a) = scaleRom ctl.scaleMode d i ∧ o.val = stopOctave split ctl off i ∧ dur = ctl.rate ∧ deg = degreeAt d i := by
  obtain hn | ⟨o', ho, hn⟩ := sound_cases split ctl d off i
  · rw [hn] at h
    cases h
  · rw [hn] at h
    cases h
    exact ⟨rfl, ho, rfl, rfl⟩

/-- The Note of a held scan index, at an offset below `stepCount`, is one of a held degree in the octaves of the
channel. -/
theorem noteFields_of_sound {split : Fin 9} {m : Mask} {ctl : Control} {d : Direction} {off : Nat} {i : Degree}
    {p : PitchClass} {a : Accidental} {o : Octave} {dur : Nat} {deg : Degree} (hi : held m (degreeAt d i) = true)
    (hoff : off < ctl.stepCount) (h : sound split ctl d off i = .note p a o dur deg) :
    held m deg = true ∧ dur = ctl.rate ∧ (p, a) = scaleRom ctl.scaleMode .asc deg ∧ a = .natural ∧
      ctl.octave ≤ o.val ∧ o.val ≤ ctl.octave + ctl.stepCount := by
  obtain ⟨hp, ho, rfl, rfl⟩ := eq_of_sound_eq_note h
  rw [scaleRom_degreeAt] at hp
  have hoct : ctl.octave ≤ o.val ∧ o.val ≤ ctl.octave + ctl.stepCount := by
    rw [ho, stopOctave]
    split <;> omega
  exact ⟨hi, rfl, hp, congrArg Prod.snd hp, hoct⟩

/-! ### The single-note case (R166) -/

/-- The one held degree's index is the lowest of the scan mask. -/
theorem lowbit_scanMask_of_single {m : Mask} {g : Degree} (h1 : popcount m = 1) (hg : held m g = true) (d : Direction) :
    lowbit (scanMask d m) = degreeAt d g := by
  apply lowbit_of_unique
  intro j
  rw [held_scanMask, held_of_popcount_one h1 hg]
  exact decide_eq_decide.mpr ⟨fun h => by rw [← h, degreeAt_degreeAt], fun h => by rw [h, degreeAt_degreeAt]⟩

theorem singleNote_rest (split : Fin 9) (m : Mask) (ctl : Control) (d : Direction) {e : EngineState}
    (h : e.snt = true) :
    singleNote split m ctl d e = ({ e with octaveWrap := false, snt := false }, ⟨.rest ctl.rate, false⟩) := by
  simp [singleNote, h]

theorem singleNote_sound (split : Fin 9) (m : Mask) (ctl : Control) (d : Direction) {e : EngineState}
    (h : e.snt = false) :
    singleNote split m ctl d e =
      ({ e with octaveWrap := false, snt := true, cursor := some (lowbit (scanMask d m)) },
        ⟨sound split ctl d 0 (lowbit (scanMask d m)), false⟩) := by
  simp [singleNote, h]

/-- The single-note scanner in the direction selected. -/
theorem scanner_select_single (split : Fin 9) {m : Mask} {ctl : Control} (e : EngineState)
    (hs : isSingle m ctl = true) :
    scanner split m ctl (select m ctl e) =
      singleNote split m ctl (selectPhase ctl.dir e.cursor e.phase) (select m ctl e) :=
  scanner_single split (select m ctl e) hs

/-- With one degree held and `stepCount = 1` direct alternation is the same as a bidirectional mode. -/
theorem isAlt_of_single {m : Mask} {ctl : Control} (h1 : popcount m = 1) (hS : ctl.stepCount = 1) :
    isAlt m ctl = bidirectional ctl.dir := by
  rw [Bool.eq_iff_iff, isAlt_iff]
  exact ⟨fun h => h.1, fun h => ⟨h, hS, by omega⟩⟩

/-- Settles O44: the toggle says which half of the alternation an invocation is. -/
theorem singleNoteAlternatesWithRest : Obligations.SingleNoteAlternatesWithRest := by
  intro split m ctl e g h1 hS hg d i oct r
  have hm := ne_zero_of_held hg
  have hs := (isSingle_iff m ctl).mpr ⟨h1, hS⟩
  obtain ⟨htop, hbottom⟩ := select_noChop (isCompose_false_of_single hs) e
  have heng : r.1 = _ := engine_eng split ctl e hm
  have hout : r.2 = _ := engine_emission split ctl e hm
  rw [scanner_select_single split e hs, isAlt_of_single h1 hS] at heng
  rw [scanner_select_single split e hs] at hout
  cases ht : e.snt
  · rw [singleNote_sound split m ctl _ (e := select m ctl e) ht, lowbit_scanMask_of_single h1 hg] at heng hout
    rw [heng, hout]
    refine ⟨rfl, rfl, rfl, htop, hbottom, rfl, rfl, nofun, fun _ => ⟨?_, fun hv => ?_, fun hv => ?_⟩⟩
    · cases bidirectional ctl.dir <;> rfl
    · exact sound_invalid split ctl d 0 i hv
    · obtain ⟨o, ho, hn⟩ := sound_valid split ctl d 0 i hv
      exact ⟨o, ho, hn.trans (congrArg (EngineOut.note _ _ o ctl.rate) (degreeAt_degreeAt d g))⟩
  · rw [singleNote_rest split m ctl _ (e := select m ctl e) ht] at heng hout
    rw [heng, hout]
    exact ⟨rfl, rfl, rfl, htop, hbottom, rfl, rfl, fun _ => ⟨rfl, rfl⟩, nofun⟩

/-- Settles O43: a Note is that of a regular stop, or of the single-note case with no offset. -/
theorem noteSoundsAHeldDegreeInItsOctaves : Obligations.NoteSoundsAHeldDegreeInItsOctaves := by
  intro split m ctl e p a o dur deg hS hnote
  by_cases hm : m = 0
  · subst hm
    rw [engine_zero] at hnote
    cases hnote
  cases hs : isSingle m ctl
  · rw [engine_regular_emission split e hm hs] at hnote
    obtain h | h := stopOutput_cases split ctl (isCompose m ctl) (invocationStop m ctl e).eng (invocationStop m ctl e).d
      (invocationStop m ctl e).i
    · cases h.symm.trans hnote
    · exact noteFields_of_sound (invocationStop_held hm ctl e) (invocationStop_runInRange hm hS e).offset_lt
        (h.symm.trans hnote)
  · rw [engine_emission split ctl e hm, scanner_select_single split e hs] at hnote
    cases ht : e.snt
    · rw [singleNote_sound split m ctl _ (e := select m ctl e) ht] at hnote
      obtain ⟨g, hg⟩ := exists_held_scanMask (selectPhase ctl.dir e.cursor e.phase) hm
      exact noteFields_of_sound (by rw [← held_scanMask]; exact lowbit_held hg) hS hnote
    · rw [singleNote_rest split m ctl _ (e := select m ctl e) ht] at hnote
      cases hnote

/-! ### What an invocation leaves behind its stop (R159 to R162) -/

/-- Outside composition the stop of an invocation has no chop pending and no phrase raised. -/
theorem invocationStop_plain {m : Mask} (hm : m ≠ 0) {ctl : Control} (hc : isCompose m ctl = false) (e : EngineState) :
    (invocationStop m ctl e).eng.NoChop ∧ (invocationStop m ctl e).phr = false := by
  obtain ⟨k, run, wrap, h⟩ := findStop_plain hm ctl (select m ctl e).phase (select m ctl e)
  rw [invocationStop, hc, h]
  exact ⟨select_noChop hc e, rfl⟩

/-- Settles O42: a stop below index 7 only spends its flags; on index 7 the pass end of its direction follows. -/
theorem stopOnIndexSevenEndsThePass : Obligations.StopOnIndexSevenEndsThePass := by
  intro split m ctl e hm hs x r kept top bottom
  have heng : r.1 = _ := engine_regular_eng split e hm hs
  have hphr : r.2.phrase = (finishStop m ctl (isCompose m ctl) x).phr :=
    congrArg Emission.phrase (engine_regular_emission split e hm hs)
  have hwrap : r.1.octaveWrap = _ := (congrArg EngineState.octaveWrap heng).trans (finishStop_octaveWrap m ctl _ x)
  have hplain (hc : isCompose m ctl = false) : x.eng.NoChop ∧ x.phr = false := invocationStop_plain hm hc e
  rw [show invocationStop m ctl e = x from rfl] at heng
  refine ⟨fun h7 => ?_, fun h7 => ?_, fun h7 hd hr => ?_, fun h7 hd hr => ?_,
    fun h7 hd hr => ⟨fun hc => ?_, fun hc => ?_⟩,
    fun h7 hd hr => ⟨fun hc => ?_, fun hc => ?_⟩⟩
  · rw [if_neg h7] at hwrap
    rw [finishStop_below_seven m ctl _ h7] at heng hphr
    rw [heng] at hwrap ⊢
    exact ⟨hwrap, rfl, rfl, rfl, rfl, hphr⟩
  · rw [hwrap, if_pos h7]
  · rw [finishStop_seven m ctl _ h7, passEnd_asc_counts (x := armedStop m _ x) _ hd hr] at heng hphr
    rw [heng]
    exact ⟨rfl, rfl, rfl, rfl, hphr⟩
  · rw [finishStop_seven m ctl _ h7, passEnd_desc_counts (x := armedStop m _ x) _ hd hr] at heng hphr
    rw [heng]
    exact ⟨rfl, rfl, rfl, rfl, hphr⟩
  · rw [finishStop_seven m ctl _ h7, hc, passEnd_asc_flips (x := armedStop m _ x) hd hr] at heng hphr
    rw [heng, isAlt_false_of_compose hc]
    exact ⟨rfl, rfl, rfl, by simp [hd], hphr⟩
  · obtain ⟨⟨ht, hb⟩, hp⟩ := hplain hc
    rw [finishStop_seven m ctl _ h7, hc, passEnd_asc_wraps (x := armedStop m _ x) hd hr] at heng hphr
    rw [heng]
    exact ⟨rfl, rfl, by simp [ht], by simp [hb], hphr.trans hp⟩
  · rw [finishStop_seven m ctl _ h7, hc, passEnd_desc_flips (x := armedStop m _ x) hd hr] at heng hphr
    rw [heng, isAlt_false_of_compose hc]
    exact ⟨rfl, rfl, by simp [hd], rfl, hphr⟩
  · obtain ⟨⟨ht, hb⟩, hp⟩ := hplain hc
    rw [finishStop_seven m ctl _ h7, hc, passEnd_desc_wraps (x := armedStop m _ x) hd hr] at heng hphr
    rw [heng]
    exact ⟨rfl, rfl, by simp [ht], by simp [hb], hphr.trans hp⟩

/-- Where the index after the cursor is held, the scan stops where it starts. -/
theorem findStop_at_start {m : Mask} {d : Direction} {e : EngineState}
    (h : held (scanMask d m) (scanStart e.cursor) = true)
    (ctl : Control) (compose : Bool) :
    findStop m ctl compose d e = scanFrom ctl d e := scanLoop_held ctl compose scanBound (x := scanFrom ctl d e) h

/-- A stop on index 7 with index 0 held leaves the wrap armed. -/
theorem engine_arms_wrap (split : Fin 9) {m : Mask} {ctl : Control} (e : EngineState) (hs : isSingle m ctl = false)
    (h7 : (invocationStop m ctl e).i = 7) (h0 : held (scanMask (invocationStop m ctl e).d m) 0 = true) :
    (engine split m ctl e).1.octaveWrap = true := by
  have hm : m ≠ 0 := ne_zero_of_held (by rwa [held_scanMask] at h0)
  rw [engine_regular_eng split e hm hs]
  change (finishStop m ctl (isCompose m ctl) (invocationStop m ctl e)).eng.octaveWrap = true
  rw [finishStop_octaveWrap, if_pos h7, h0, Bool.or_true]

/-- The stop on index 0 after index 7 spends an armed wrap in silence. -/
theorem engine_spends_wrap (split : Fin 9) {m : Mask} {ctl : Control} {e : EngineState} (hs : isSingle m ctl = false)
    (h0 : held (scanMask (selectPhase ctl.dir e.cursor e.phase) m) 0 = true) (h7 : e.cursor = some 7)
    (hw : e.octaveWrap = true) :
    (engine split m ctl e).2.out = .none ∧ (engine split m ctl e).1.octaveWrap = false := by
  have hm : m ≠ 0 := ne_zero_of_held (by rwa [held_scanMask] at h0)
  have hstart : scanStart (select m ctl e).cursor = 0 := by
    change scanStart e.cursor = 0
    rw [h7]
    rfl
  have hx : invocationStop m ctl e = scanFrom ctl (select m ctl e).phase (select m ctl e) :=
    findStop_at_start (by rw [hstart]; exact h0) ctl (isCompose m ctl)
  have hi : (invocationStop m ctl e).i = 0 := by rw [hx]; exact hstart
  have hxw : (invocationStop m ctl e).eng.octaveWrap = true := by rw [hx]; exact hw
  constructor
  · rw [engine_regular_emission split e hm hs]
    exact stopOutput_suppressed split ctl ((stop_suppressed_iff ..).mpr (.inl ⟨hi, hxw⟩))
  · rw [engine_regular_eng split e hm hs]
    change (finishStop m ctl (isCompose m ctl) (invocationStop m ctl e)).eng.octaveWrap = false
    rw [finishStop_octaveWrap, hi]
    simp

theorem isAlt_false_of_unidirectional {m : Mask} {ctl : Control} (h : bidirectional ctl.dir = false) :
    isAlt m ctl = false := by simp [isAlt, h]

theorem isCompose_false_of_unidirectional {m : Mask} {ctl : Control} (h : bidirectional ctl.dir = false) :
    isCompose m ctl = false := by simp [isCompose, h]

/-- Settles O47: an Up or Down invocation whose cursor ends on index 7 stopped there, so both arming clauses are one. -/
theorem octaveWrapSilencesTheDoubledRoot : Obligations.OctaveWrapSilencesTheDoubledRoot := by
  intro split m ctl e hs
  refine ⟨fun h0 => ⟨engine_spends_wrap split hs h0, fun _ hb hcur => ?_⟩, engine_arms_wrap split e hs⟩
  have hm : m ≠ 0 := ne_zero_of_held (by rwa [held_scanMask] at h0)
  have hd := invocationStop_d_of_plain hm (isCompose_false_of_unidirectional hb) e
  rw [engine_regular_eng split e hm hs, isAlt_false_of_unidirectional hb] at hcur
  exact engine_arms_wrap split e hs (Option.some.inj hcur) (by rwa [hd])

/-! ### A pending chop (R159, R165) -/

/-- A placed chop, named by the direction of the stops it suppresses. -/
theorem EngineState.ChopPlaced.of_pending {e : EngineState} (he : e.ChopPlaced) {d : Direction}
    (h : chopSuppresses e true d = true) : e.phase = d ∧ e.cursor = some 7 := by
  cases d
  · exact he.2 h
  · exact he.1 h

/-- A stop spends the chop of its direction. -/
theorem chopSuppresses_consumeFlags (e : EngineState) (d : Direction) (i : Degree) :
    chopSuppresses (consumeFlags e true d i) true d = false := by cases d <;> simp [chopSuppresses, consumeFlags]

/-- A pass end sets no chop of the direction it ends. -/
theorem chopSuppresses_passEnd (ctl : Control) (compose : Bool) (x : Scan) :
    chopSuppresses (passEnd ctl compose x).eng true x.d = chopSuppresses x.eng true x.d := by
  obtain ⟨r, h, -⟩ | ⟨-, hd, -, h⟩ | ⟨-, hd, -, h⟩ := passEnd_cases ctl compose x <;> rw [h]
  · rfl
  · rw [hd]
    rfl
  · rw [hd]
    rfl

theorem chopSuppresses_finishStop (m : Mask) (ctl : Control) (x : Scan) :
    chopSuppresses (finishStop m ctl true x).eng true x.d = false := by
  by_cases h : x.i = 7
  · rw [finishStop_seven m ctl true h]
    exact (chopSuppresses_passEnd ctl true (armedStop m true x)).trans (chopSuppresses_consumeFlags _ x.d x.i)
  · rw [finishStop_below_seven m ctl true h]
    exact chopSuppresses_consumeFlags ..

/-- A pending chop silences an invocation in composition, whose scan stops in the pass it starts in, and is spent. -/
theorem engine_spends_chop (split : Fin 9) {m : Mask} {ctl : Control} {e : EngineState} (hm : m ≠ 0)
    (hc : isCompose m ctl = true) (he : e.ChopPlaced) {d : Direction} (h : chopSuppresses e true d = true) :
    (engine split m ctl e).2.out = .none ∧ chopSuppresses (engine split m ctl e).1 true d = false := by
  have hs := isSingle_false_of_compose hc
  have hsel : chopSuppresses (select m ctl e) true d = true := by
    rw [← h]
    cases d <;> simp [chopSuppresses, select, hc]
  obtain ⟨hphase, h7⟩ := (select_chopPlaced m ctl he).of_pending hsel
  obtain ⟨k, hk⟩ := firstHeldFrom_zero d hm
  have hk' : FirstHeldFrom m d (scanStart (select m ctl e).cursor) k := by
    rw [h7]
    exact hk
  have hx : invocationStop m ctl e = _ := (congrArg (findStop m ctl _ · _) hphase).trans (findStop_in_pass hk' ctl _)
  have hd : (invocationStop m ctl e).d = d := by rw [hx]
  have hchop : chopSuppresses (invocationStop m ctl e).eng true d = true := by
    rw [hx]
    exact hsel
  constructor
  · rw [engine_regular_emission split e hm hs, hc, hd]
    exact stopOutput_suppressed split ctl (by rw [hchop, Bool.or_true])
  · rw [engine_regular_eng split e hm hs, hc]
    have hspent := chopSuppresses_finishStop m ctl (invocationStop m ctl e)
    rw [hd] at hspent
    exact hspent

/-- Settles O46: the chop of either direction. -/
theorem choppedInvocationIsSilent : Obligations.ChoppedInvocationIsSilent := fun split _ _ _ hm hc he =>
  ⟨engine_spends_chop split hm hc he (d := .desc), engine_spends_chop split hm hc he (d := .asc)⟩

/-! ### The phrase signal (R162) -/

/-- A scan in composition still in the direction `d0` it began in; it has raised no phrase. -/
def Scan.Unflipped (d0 : Direction) (x : Scan) : Prop := x.eng.phase = d0 ∧ x.d = d0 ∧ x.phr = false

/-- A scan in composition that began in direction `d0` and has flipped once; it has raised the phrase signal exactly when
that took it to the start phase of the mode. -/
def Scan.Flipped (dir : DirMode) (d0 : Direction) (x : Scan) : Prop :=
  x.eng.phase = flip d0 ∧ x.d = flip d0 ∧ x.phr = decide (flip d0 = startPhase dir)

/-- `run` at the start of a sweep. -/
def sweepStart (S : Nat) (d : Direction) : Nat :=
  match d with
  | .asc => 0
  | .desc => S

/-- Of the bidirectional modes Up-Down starts ascending and Down-Up descending. -/
theorem beq_mode_eq_startPhase {dir : DirMode} (hb : bidirectional dir = true) :
    (dir == .upDown) = decide (Direction.asc = startPhase dir) ∧
      (dir == .downUp) = decide (Direction.desc = startPhase dir) := by
  obtain rfl | rfl := (bidirectional_iff dir).mp hb
  · exact ⟨rfl, rfl⟩
  · exact ⟨rfl, rfl⟩

/-- A pass end in composition flips the scan at most, and then a new sweep starts. -/
theorem passEnd_of_unflipped {ctl : Control} (hb : bidirectional ctl.dir = true) {d0 : Direction} {x : Scan}
    (hx : x.Unflipped d0) :
    (passEnd ctl true x).Unflipped d0 ∨
      (passEnd ctl true x).Flipped ctl.dir d0 ∧ (passEnd ctl true x).eng.run = sweepStart ctl.stepCount (flip d0) := by
  have ⟨_, hd0, hphr⟩ := hx
  obtain ⟨r, h, -⟩ | ⟨-, hd, -, h⟩ | ⟨-, hd, -, h⟩ := passEnd_cases ctl true x <;> rw [h]
  · exact .inl hx
  · obtain rfl : Direction.asc = d0 := hd.symm.trans hd0
    exact .inr ⟨⟨rfl, rfl, by rw [hphr]; exact (beq_mode_eq_startPhase hb).2⟩, rfl⟩
  · obtain rfl : Direction.desc = d0 := hd.symm.trans hd0
    exact .inr ⟨⟨rfl, rfl, by rw [hphr]; exact (beq_mode_eq_startPhase hb).1⟩, rfl⟩

/-- A sweep of two passes or more does not end with its first. -/
theorem passEnd_of_sweepStart {ctl : Control} (hS : 2 ≤ ctl.stepCount) (compose : Bool) {x : Scan}
    (hr : x.eng.run = sweepStart ctl.stepCount x.d) :
    ∃ r, passEnd ctl compose x = { x with eng := { x.eng with run := r } } := by
  obtain hd | hd : x.d = .asc ∨ x.d = .desc := by cases x.d <;> simp
  · have h0 : x.eng.run = 0 := by rw [hr, hd]; rfl
    exact ⟨_, passEnd_asc_counts compose hd (by omega)⟩
  · have h0 : x.eng.run = ctl.stepCount := by rw [hr, hd]; rfl
    exact ⟨_, passEnd_desc_counts compose hd (by omega)⟩

theorem popcount_onehot (g : Degree) : popcount (onehot g) = 1 := by
  revert g
  decide

/-- A scan mask that holds index 7 and none below holds one degree. -/
theorem popcount_of_firstHeldFrom_seven {m : Mask} {d : Direction} (h : FirstHeldFrom m d 0 7) : popcount m = 1 := by
  obtain ⟨-, h7, hlow⟩ := h
  have hm : m = onehot (degreeAt d 7) := by
    apply mask_ext
    intro j
    have hj : held m j = held (scanMask d m) (degreeAt d j) := by rw [held_scanMask, degreeAt_degreeAt]
    rw [held_onehot, hj]
    by_cases hj7 : j = degreeAt d 7
    · rw [hj7, degreeAt_degreeAt, h7, decide_eq_true rfl]
    · have hne : (degreeAt d j).val ≠ 7 := fun hv =>
        hj7 (by rw [← degreeAt_degreeAt d j, show degreeAt d j = 7 from Fin.ext hv])
      rw [hlow _ (Nat.zero_le _) (by change _ < 7; omega), decide_eq_false hj7]
  rw [hm, popcount_onehot]

/-- In composition `stepCount = 1` takes three held degrees. -/
theorem two_le_stepCount_of_compose {m : Mask} {ctl : Control} (hc : isCompose m ctl = true) (hS : 1 ≤ ctl.stepCount)
    (h1 : popcount m = 1) : 2 ≤ ctl.stepCount := by
  obtain ⟨hb, halt⟩ := (isCompose_iff m ctl).mp hc
  by_contra hlt
  rw [(isAlt_iff m ctl).mpr ⟨hb, by omega, by omega⟩] at halt
  cases halt

/-- The stop of an invocation in composition: not flipped, or flipped at the start of a sweep that a stop on index 7 does
not end. -/
theorem invocationStop_of_compose {m : Mask} (hm : m ≠ 0) {ctl : Control} (hc : isCompose m ctl = true)
    (hS : 1 ≤ ctl.stepCount) (e : EngineState) :
    (invocationStop m ctl e).Unflipped (select m ctl e).phase ∨
      (invocationStop m ctl e).Flipped ctl.dir (select m ctl e).phase ∧
        (invocationStop m ctl e).eng.run = sweepStart ctl.stepCount (invocationStop m ctl e).d ∧
        ((invocationStop m ctl e).i = 7 → 2 ≤ ctl.stepCount) := by
  have hstart : (scanFrom ctl (select m ctl e).phase (select m ctl e)).Unflipped (select m ctl e).phase :=
    ⟨rfl, rfl, rfl⟩
  rw [invocationStop, hc, findStop_eq_scanLoop]
  obtain ⟨k, -, h⟩ | ⟨-, -, k, hk, h⟩ :=
    scanLoop_cases hm ctl true (scanFrom ctl (select m ctl e).phase (select m ctl e)) <;> rw [h]
  · exact .inl hstart
  · obtain hu | ⟨hf, hrun⟩ := passEnd_of_unflipped ((isCompose_iff m ctl).mp hc).1 hstart
    · exact .inl hu
    · refine .inr ⟨hf, ?_, fun h7 => ?_⟩
      · obtain ⟨-, hd, -⟩ := hf
        exact hrun.trans (congrArg _ hd.symm)
      · obtain rfl : k = 7 := h7
        exact two_le_stepCount_of_compose hc hS (popcount_of_firstHeldFrom_seven hk)

/-- An invocation in composition flips once at most, in its scan or at its stop. -/
theorem finishStop_of_compose {m : Mask} (hm : m ≠ 0) {ctl : Control} (hc : isCompose m ctl = true)
    (hS : 1 ≤ ctl.stepCount) (e : EngineState) :
    (finishStop m ctl true (invocationStop m ctl e)).Unflipped (select m ctl e).phase ∨
      (finishStop m ctl true (invocationStop m ctl e)).Flipped ctl.dir (select m ctl e).phase := by
  have hstop := invocationStop_of_compose hm hc hS e
  by_cases h7 : (invocationStop m ctl e).i = 7
  · rw [finishStop_seven m ctl true h7]
    obtain hu | ⟨hf, hrun, h2⟩ := hstop
    · obtain hu | ⟨hf, -⟩ :=
        passEnd_of_unflipped (x := armedStop m true (invocationStop m ctl e)) ((isCompose_iff m ctl).mp hc).1 hu
      · exact .inl hu
      · exact .inr hf
    · obtain ⟨r, h⟩ := passEnd_of_sweepStart (x := armedStop m true (invocationStop m ctl e)) (h2 h7) true hrun
      rw [h]
      exact .inr hf
  · rw [finishStop_below_seven m ctl true h7]
    obtain hu | ⟨hf, -⟩ := hstop
    · exact .inl hu
    · exact .inr hf

/-- The phrase signal of a scan that has flipped once at most, as its two phases. -/
theorem phr_iff_of_flipped_once {dir : DirMode} {d0 : Direction} {x : Scan} (h : x.Unflipped d0 ∨ x.Flipped dir d0) :
    x.phr = true ↔ d0 = flip (startPhase dir) ∧ x.eng.phase = startPhase dir := by
  obtain ⟨hp, -, hphr⟩ | ⟨hp, -, hphr⟩ := h <;> rw [hp, hphr]
  · cases d0 <;> cases startPhase dir <;> decide
  · cases d0 <;> cases startPhase dir <;> decide

theorem finishStop_plain_phr (m : Mask) (ctl : Control) (x : Scan) : (finishStop m ctl false x).phr = x.phr := by
  by_cases h : x.i = 7
  · obtain ⟨r, hp⟩ := passEnd_plain ctl (armedStop m false x)
    rw [finishStop_seven m ctl false h, hp]
    rfl
  · rw [finishStop_below_seven m ctl false h]

/-- Outside composition, and over an all-zero mask, no invocation signals phrase complete. -/
theorem engine_phrase_of_plain (split : Fin 9) {m : Mask} {ctl : Control} (e : EngineState)
    (h : m = 0 ∨ isCompose m ctl = false) : (engine split m ctl e).2.phrase = false := by
  by_cases hm : m = 0
  · rw [hm, engine_zero]
  have hc := h.resolve_left hm
  cases hs : isSingle m ctl
  · rw [engine_regular_emission split e hm hs, hc]
    exact (finishStop_plain_phr m ctl _).trans (invocationStop_plain hm hc e).2
  · rw [engine_emission split ctl e hm, scanner_select_single split e hs]
    unfold singleNote
    split <;> rfl

/-- Settles O48: in composition by the one flip an invocation can make, elsewhere there is no signal. -/
theorem phraseCompletesOnReturnToStartPhase : Obligations.PhraseCompletesOnReturnToStartPhase := by
  intro split m ctl e hS
  by_cases hplain : m = 0 ∨ isCompose m ctl = false
  · rw [engine_phrase_of_plain split e hplain]
    exact ⟨nofun, fun ⟨hm, hc, _⟩ => absurd hplain (not_or.mpr ⟨hm, by simp [hc]⟩)⟩
  · obtain ⟨hm, hc⟩ := not_or.mp hplain
    have hc : isCompose m ctl = true := by simpa using hc
    have hs := isSingle_false_of_compose hc
    have hiff := phr_iff_of_flipped_once (finishStop_of_compose hm hc hS e)
    rw [engine_regular_emission split e hm hs, engine_regular_eng split e hm hs, isAlt_false_of_compose hc, hc]
    exact hiff.trans ⟨fun h => ⟨hm, rfl, h⟩, fun h => h.2.2⟩

/-! ### Two notes in direct alternation (R167, R168) -/

/-- An invocation will select direction `d` and scan that direction's mask from its first held index, with no wrap
pending. -/
def ReadyToAlternate (m : Mask) (ctl : Control) (d : Direction) (e : EngineState) : Prop :=
  selectPhase ctl.dir e.cursor e.phase = d ∧ e.octaveWrap = false ∧
    (scanStart e.cursor = 0 ∨ ∀ j : Degree, (scanStart e.cursor).val ≤ j.val → held (scanMask d m) j = false)

/-- The stop of such an invocation outside composition is the first held index. -/
theorem ReadyToAlternate.invocationStop {m : Mask} {ctl : Control} {d : Direction} {e : EngineState} (hm : m ≠ 0)
    (hc : isCompose m ctl = false) (he : ReadyToAlternate m ctl d e) :
    ∃ k run, FirstHeldFrom m d 0 k ∧
      invocationStop m ctl e = ⟨{ select m ctl e with snt := false, run := run, octaveWrap := false }, d, k, false⟩ := by
  obtain ⟨hd, hw, hstart⟩ := he
  obtain ⟨k, hk⟩ := firstHeldFrom_zero d hm
  have hselw : (select m ctl e).octaveWrap = false := hw
  have hcur : (select m ctl e).cursor = e.cursor := rfl
  rw [Machine.invocationStop, hc, show (select m ctl e).phase = d from hd]
  obtain h0 | hn := hstart
  · have hk' : FirstHeldFrom m d (scanStart (select m ctl e).cursor) k := by rwa [hcur, h0]
    rw [findStop_in_pass hk', hselw]
    exact ⟨k, _, hk, rfl⟩
  · obtain ⟨k, hk, h⟩ := findStop_next_pass hm ctl false (e := select m ctl e) hn
    obtain ⟨run, hp⟩ := passEnd_plain ctl (scanFrom ctl d (select m ctl e))
    rw [hp, hselw] at h
    rw [hp] at hk
    exact ⟨k, run, hk, h⟩

/-- A stop below index 7 at no offset and with no flag pending sounds in every base octave up to 7. -/
theorem stopOutput_sounds {split : Fin 9} {ctl : Control} {e : EngineState} {d : Direction} {k : Degree}
    (hO : ctl.octave ≤ 7) (hw : e.octaveWrap = false) (hk : k ≠ 7) (hoff : offset d e.run = 0) :
    ∃ p a o, stopOutput split ctl false e d k = .note p a o ctl.rate (degreeAt d k) := by
  rw [stopOutput_unsuppressed split ctl (by rw [stop_suppressed_iff]; simp [hw]), hoff]
  obtain ⟨o, -, h⟩ := sound_valid split ctl d 0 k (by
    rw [stopOctave]
    split <;> simp only [hk, false_and, false_or] <;> omega)
  exact ⟨_, _, o, h⟩

/-- Behind a stop on the first held index, mirrored, the scan of the other direction holds nothing. -/
theorem nothing_held_from_mirror {m : Mask} {d : Direction} {k : Degree} (hk : FirstHeldFrom m d 0 k) :
    mirror k + 1 = 0 ∨ ∀ j : Degree, (mirror k + 1).val ≤ j.val → held (scanMask (flip d) m) j = false := by
  obtain ⟨-, -, hlow⟩ := hk
  by_cases h7 : (mirror k).val = 7
  · exact .inl (by rw [show mirror k = 7 from Fin.ext h7]; rfl)
  · refine .inr fun j hj => ?_
    have hv : (mirror k + 1).val = (mirror k).val + 1 := Fin.val_add_one_of_lt' (by omega)
    have hj' : held (scanMask (flip d) m) j = held (scanMask d m) (mirror j) := by
      rw [held_scanMask, held_scanMask]
      cases d <;> simp [degreeAt, flip]
    rw [mirror_val] at hv
    rw [hj']
    exact hlow _ (Nat.zero_le _) (by rw [mirror_val]; omega)

/-- One invocation in direct alternation sounds the first held index of its direction and is then ready in the other. -/
theorem engine_alternates (split : Fin 9) {m : Mask} {ctl : Control} {d : Direction} {e : EngineState} (hm : m ≠ 0)
    (halt : isAlt m ctl = true) (hs : isSingle m ctl = false) (hO : ctl.octave ≤ 7) (he : ReadyToAlternate m ctl d e) :
    ∃ k p a o, FirstHeldFrom m d 0 k ∧ (engine split m ctl e).2.out = .note p a o ctl.rate (degreeAt d k) ∧
      ReadyToAlternate m ctl (flip d) (engine split m ctl e).1 := by
  have hc := isCompose_false_of_alt halt
  obtain ⟨hb, hS, -⟩ := (isAlt_iff m ctl).mp halt
  obtain ⟨k, run, hk, hx⟩ := he.invocationStop hm hc
  have h7 : k ≠ 7 := by
    rintro rfl
    rw [(isSingle_iff m ctl).mpr ⟨popcount_of_firstHeldFrom_seven hk, hS⟩] at hs
    cases hs
  have hrange := invocationStop_runInRange hm (Nat.le_of_eq hS.symm) e
  rw [hx] at hrange
  have hoff := hrange.offset_lt
  rw [hS, Nat.lt_one_iff] at hoff
  obtain ⟨p, a, o, hout⟩ := stopOutput_sounds (split := split) hO rfl h7 hoff
  refine ⟨k, p, a, o, hk, ?_, ?_⟩
  · rw [engine_regular_emission split e hm hs, hc, hx]
    exact hout
  · obtain ⟨hd, -, -⟩ := he
    rw [engine_regular_eng split e hm hs, hc, halt, hx, finishStop_below_seven m ctl false h7]
    exact ⟨(selectPhase_running hb _ _).trans (congrArg flip hd), rfl, nothing_held_from_mirror hk⟩

/-- The direction of invocation `n` of an alternation that starts in `d`. -/
def alternated (d : Direction) (n : Nat) : Direction := if n % 2 = 0 then d else flip d

theorem flip_alternated (d : Direction) (n : Nat) : flip (alternated d n) = alternated d (n + 1) := by
  unfold alternated
  obtain h | h := Nat.mod_two_eq_zero_or_one n
  · rw [if_pos h, if_neg (by omega)]
  · rw [if_neg (by omega), if_pos (by omega), flip_flip]

/-- An alternation that is ready stays so. -/
theorem engineAfter_ready (split : Fin 9) {m : Mask} {ctl : Control} {d : Direction} {e : EngineState} (hm : m ≠ 0)
    (halt : isAlt m ctl = true) (hs : isSingle m ctl = false) (hO : ctl.octave ≤ 7) (he : ReadyToAlternate m ctl d e)
    (n : Nat) : ReadyToAlternate m ctl (alternated d n) (engineAfter split m ctl e n) := by
  induction n with
  | zero => exact he
  | succ n ih =>
    obtain ⟨-, -, -, -, -, -, h⟩ := engine_alternates split hm halt hs hO ih
    rwa [flip_alternated] at h

theorem popcount_onehot_or : ∀ a b : Degree, a < b → popcount (onehot a ||| onehot b) = 2 := by decide

theorem popcount_two {m : Mask} {a b : Degree} (hab : a < b) (h : ∀ i, held m i = decide (i = a ∨ i = b)) :
    popcount m = 2 := by
  have hm : m = onehot a ||| onehot b := by
    apply mask_ext
    intro i
    have hor : held (onehot a ||| onehot b) i = (held (onehot a) i || held (onehot b) i) := by simp [held]
    rw [h, hor, held_onehot, held_onehot, Bool.decide_or]
  rw [hm, popcount_onehot_or a b hab]

/-- The degree that sounds in each direction, `a` being the lower of the two. -/
def firstOfTwo (a b : Degree) (d : Direction) : Degree :=
  match d with
  | .asc => a
  | .desc => b

theorem firstOfTwo_alternated (a b : Degree) (d : Direction) (n : Nat) :
    firstOfTwo a b (alternated d n) = if n % 2 = 0 then firstOfTwo a b d else firstOfTwo a b (flip d) := by
  unfold alternated
  split <;> rfl

/-- Of two held degrees the ascending scan meets the lower first and the descending scan the upper. -/
theorem degreeAt_first_of_two {m : Mask} {a b : Degree} (hab : a < b) (h : ∀ i, held m i = decide (i = a ∨ i = b))
    {d : Direction} {k : Degree} (hk : FirstHeldFrom m d 0 k) :
    degreeAt d k = firstOfTwo a b d := by
  obtain ⟨-, hheld, hlow⟩ := hk
  rw [held_scanMask, h, decide_eq_true_iff] at hheld
  cases d
  · refine hheld.resolve_right fun hkb => ?_
    obtain rfl : k = b := hkb
    have := hlow a (Nat.zero_le _) hab
    simp [held_scanMask, degreeAt, h] at this
  · refine hheld.resolve_left fun hka => ?_
    have hlt : (mirror b).val < k.val := by
      rw [← mirror_mirror k, show mirror k = a from hka, mirror_val, mirror_val]
      have hv : a.val < b.val := hab
      omega
    have := hlow (mirror b) (Nat.zero_le _) hlt
    simp [held_scanMask, degreeAt, h] at this

/-- Settles O45: from idle the alternation is ready in the start phase of the mode, and each direction sounds its own
degree. -/
theorem twoNotesAlternateForEver : Obligations.TwoNotesAlternateForEver := by
  intro split m ctl e a b hab hheld hS hO hcur hw n
  have hm : m ≠ 0 := ne_zero_of_held (i := a) (by simp [hheld])
  have hpop := popcount_two hab hheld
  have hs : isSingle m ctl = false := by simp [isSingle, hpop]
  have hnote {d : Direction} (hb : bidirectional ctl.dir = true) (hd : selectPhase ctl.dir e.cursor e.phase = d) :
      ∃ p acc o, engineOutput split m ctl e n =
        .note p acc o ctl.rate (if n % 2 = 0 then firstOfTwo a b d else firstOfTwo a b (flip d)) := by
    have halt := (isAlt_iff m ctl).mpr ⟨hb, hS, Nat.le_of_eq hpop⟩
    have hready : ReadyToAlternate m ctl d e := ⟨hd, hw, .inl (by rw [hcur]; rfl)⟩
    obtain ⟨k, p, acc, o, hk, hout, -⟩ :=
      engine_alternates split hm halt hs hO (engineAfter_ready split hm halt hs hO hready n)
    rw [degreeAt_first_of_two hab hheld hk, firstOfTwo_alternated] at hout
    exact ⟨p, acc, o, hout⟩
  exact ⟨fun hdir => hnote (d := .asc) (by rw [hdir]; rfl) (by rw [hdir, hcur]; rfl),
    fun hdir => hnote (d := .desc) (by rw [hdir]; rfl) (by rw [hdir, hcur]; rfl)⟩

end Sys2Proof.Machine

/-! PROOFS. The statements of 42_control.md. -/

namespace Sys2Proof.Machine

open Sys2Proof

/-- A write to the ChannelControl of a channel stays inside it. -/
theorem updateControl_sameOutside (c : Channel) (f : Control → Control) (s : State) :
    SameOutside c s (updateControl c f s) :=
  setChan_sameOutside s c _

/-! ### NOP and the StepMask write (R200, R201) -/

/-- Settles O11: `NOP` answers the state it is given. -/
theorem nopChangesNothing : Obligations.NopChangesNothing := fun _ => rfl

/-- Settles O12, from the law of the mask write. -/
theorem stepWritesOneMaskBit : Obligations.StepWritesOneMaskBit := by
  intro c d h s
  refine ⟨_, rfl, fun i => ?_, ?_, setChan_sameOutside s c _⟩
  · rw [setChan_chan, held_setHeld]
  · rw [setChan_chan]

/-! ### The attribute under edit (R202 to R204, R208) -/

/-- The cycle of attributes on the codes: each is the one before plus 1 modulo 3. -/
theorem attrCode_nextAttr (a : Attr) : (attrCode (nextAttr a)).toNat = ((attrCode a).toNat + 1) % 3 := by
  cases a <;> rfl

/-- Settles O13, from the codes of the cycle. -/
theorem attrCycleStepsTheAttribute : Obligations.AttrCycleStepsTheAttribute := by
  intro c s
  refine ⟨updateControl c _ s, rfl, ?_, ?_, updateControl_sameOutside c _ s⟩
  · rw [updateControl_chan, attrCode_nextAttr]
  · rw [updateControl_chan]

/-- Settles O14: the write is `increase`, whose field and ceiling depend on the attribute under edit. -/
theorem attrIncrementStopsAtItsCeiling : Obligations.AttrIncrementStopsAtItsCeiling := by
  intro c s
  refine ⟨updateControl c increase s, rfl, updateControl_sameOutside c increase s, ?_, ?_⟩ <;> rw [updateControl_chan]
  cases h : (s.chan c).ctl.attr <;> simp only [increase, ceiling, h]

/-- Settles O15: the write is `decrease`, whose field and floor depend on the attribute under edit. -/
theorem attrDecrementStopsAtItsFloor : Obligations.AttrDecrementStopsAtItsFloor := by
  intro c s
  refine ⟨updateControl c decrease s, rfl, updateControl_sameOutside c decrease s, ?_, ?_⟩ <;> rw [updateControl_chan]
  cases h : (s.chan c).ctl.attr <;> simp only [decrease, h, Nat.max_zero]

/-! ### Mode selection (R205, R206) -/

/-- Settles O16: the write to `dir` keeps the rest of the channel. -/
theorem dirWritesTheModeOnly : Obligations.DirWritesTheModeOnly := fun c _ s =>
  ⟨updateControl c _ s, rfl, updateControl_chan c _ s, updateControl_sameOutside c _ s⟩

/-- Every index but 7 is the code of a scale mode, the one it names (10_state.md R28). -/
theorem exists_scaleMode_of_ne_seven {k : BitVec 3} (hk : k ≠ 7#3) :
    ∃ mode, scaleModeOfIndex k = some mode ∧ scaleCode mode = k := by
  have hcode : ∀ k ≠ 7#3, (scaleModeOfIndex k).map scaleCode = some k := by decide
  exact Option.map_eq_some_iff.mp (hcode k hk)

theorem exec_scale_of_mode {k : BitVec 3} {mode : ScaleMode} (hk : scaleModeOfIndex k = some mode) (c : Channel)
    (s : State) :
    exec (.scale c k) s = .next (updateControl c (fun ctl => { ctl with scaleMode := mode }) s) := by
  simp only [exec, execScale, hk]

theorem exec_scale_seven (c : Channel) (s : State) : exec (.scale c 7#3) s = .next s := rfl

/-- Settles O17: the index 7 names no mode and is ignored, and every other index is the code of the mode it names. -/
theorem scaleSelectsTheRow : Obligations.ScaleSelectsTheRow := by
  intro c k s
  by_cases hk : k = 7#3
  · subst hk
    exact ⟨s, exec_scale_seven c s, ⟨rfl, rfl, rfl⟩, rfl, rfl⟩
  · obtain ⟨mode, hmode, hcode⟩ := exists_scaleMode_of_ne_seven hk
    refine ⟨_, exec_scale_of_mode hmode c s, updateControl_sameOutside c _ s, ?_, ?_⟩ <;> rw [updateControl_chan]
    rw [if_neg hk, hcode]

end Sys2Proof.Machine

/-! PROOFS. The statements of 43_tick.md. -/

namespace Sys2Proof.Machine

open Sys2Proof

/-! ### The two kinds of TICK (R220) -/

theorem exec_tick (c : Channel) (s : State) :
    exec (.tick c) s = .next (tickWith (Config.split c) Config.periodTable c s) := rfl

theorem invokes_eq_false_iff (x : ChannelState) : invokes x = false ↔ x.sch.beat + 1 < x.sch.noteDur := by
  simp [invokes]

theorem tickChannel_of_invokes (split : Fin 9) (table : PeriodTable) (m : Mask) {x : ChannelState}
    (h : invokes x = true) : tickChannel split table m x = invoke split table m x := if_pos h

theorem tickChannel_of_counts (split : Fin 9) (table : PeriodTable) (m : Mask) {x : ChannelState}
    (h : invokes x = false) : tickChannel split table m x = countBeat x := by simp [tickChannel, h]

/-- The sequence hook advances the playback cursor exactly for channel 2 while playing, on phrase complete. -/
theorem hook_eq (c : Channel) (phr : Bool) (r : Recorder) :
    hook c phr r = if c = .two ∧ r.play = true ∧ phr = true then { r with seqCursor := r.seqCursor + 1 } else r := by
  cases c <;> simp [hook, seqAdvance]

@[simp] theorem hook_seq (c : Channel) (phr : Bool) (r : Recorder) : (hook c phr r).seq = r.seq := by
  obtain h | ⟨-, -, -, h⟩ := hook_cases c phr r <;> rw [h]

@[simp] theorem hook_play (c : Channel) (phr : Bool) (r : Recorder) : (hook c phr r).play = r.play := by
  obtain h | ⟨-, -, -, h⟩ := hook_cases c phr r <;> rw [h]

theorem setChan_setRecorder_self (s : State) (c : Channel) (x : ChannelState) :
    (s.setChan c x).setRecorder s.recorder = s.setChan c x := by cases c <;> rfl

/-- A TICK that does not invoke the engine counts the beat of its channel, and that is all. -/
theorem exec_tick_of_counts {c : Channel} {s : State} (h : invokes (s.chan c) = false) :
    exec (.tick c) s = .next (s.setChan c (countBeat (s.chan c))) := by
  rw [exec_tick, tickWith, tickChannel_of_counts _ _ _ h, hook_eq]
  simp [tickPhrase, h, setChan_setRecorder_self]

/-- A TICK adds to the trace the record of its own invocation, if it invokes the engine. -/
theorem emissionTrace_tick (c : Channel) (s : State) :
    emissionTrace c [.tick c] s =
      if invokes (s.chan c) = true then
        [(engine (Config.split c) (effMask c s) (s.chan c).ctl (s.chan c).eng).2]
      else [] := by
  rw [emissionTrace_cons (exec_tick c s)]
  cases h : invokes (s.chan c) <;> simp [emitted, emissionTrace, tickChannel_port, h]

/-! ### What an invocation writes (R220) -/

section

variable (split : Fin 9) (table : PeriodTable) (m : Mask) (x : ChannelState)

@[simp] theorem invoke_eng : (invoke split table m x).eng = (engine split m x.ctl x.eng).1 := emit_eng ..
@[simp] theorem invoke_port : (invoke split table m x).port = some (engine split m x.ctl x.eng).2 := emit_port ..
@[simp] theorem invoke_beat : (invoke split table m x).sch.beat = 0 := emit_beat ..
@[simp] theorem invoke_scanPos : (invoke split table m x).sch.scanPos = x.sch.scanPos + 1 := emit_scanPos ..
@[simp] theorem invoke_gate :
    (invoke split table m x).stage.gate = if x.stage.restActive then x.stage.gate else !x.stage.gate := emit_gate ..

variable {split m x}

/-- What an invocation leaves is the output stage's taking of its output. -/
theorem invoke_eq_emit {out : EngineOut} (h : (engine split m x.ctl x.eng).2.out = out) :
    invoke split table m x =
      emit table out
        { x with
          stage := toggleGate x.stage
          sch := { x.sch with beat := 0, scanPos := x.sch.scanPos + 1 }
          eng := (engine split m x.ctl x.eng).1
          port := some (engine split m x.ctl x.eng).2 } := h ▸ rfl

end

/-- Settles O24: below the duration the TICK is `countBeat`; at or above it the channel is `invoke`'s, whose writes to
the output stage are the cases of `emit`. -/
theorem tickRunsItsSteps : Obligations.TickRunsItsSteps := by
  refine ⟨fun c s h => ?_, fun c s h => ?_⟩
  · have hi := (invokes_eq_false_iff _).mpr h
    refine ⟨_, exec_tick_of_counts hi, setChan_sameOutside s c _, setChan_chan s c _, ?_⟩
    simp [emissionTrace_tick, hi]
  · have hi := (invokes_iff _).mpr h
    refine ⟨_, exec_tick c s, tickWith_chan_other _ _ c s, tickWith_input _ _ c s, ?_⟩
    rw [emissionTrace_tick, if_pos hi, tickWith_recorder, tickPhrase_tickChannel, hi, Bool.true_and, hook_eq]
    rw [tickWith_chan]
    refine ⟨tickChannel_mask .., tickChannel_ctl .., ?_⟩
    rw [tickChannel_of_invokes _ _ _ hi]
    refine ⟨invoke_beat .., invoke_scanPos .., invoke_gate .., invoke_eng .., invoke_port .., rfl, ?_, rfl⟩
    cases hout : (engine (Config.split c) (effMask c s) (s.chan c).ctl (s.chan c).eng).2.out <;>
      rw [invoke_eq_emit _ hout] <;> exact ⟨rfl, rfl, rfl, rfl⟩

/-! ### The duration of a note (R221) -/

/-- `k` beats counted in a row. -/
theorem iterate_countBeat (k : Nat) (x : ChannelState) :
    (countBeat^[k] x).sch.beat = x.sch.beat + k ∧ (countBeat^[k] x).sch.noteDur = x.sch.noteDur ∧
      (countBeat^[k] x).eng = x.eng ∧ (countBeat^[k] x).stage.period = x.stage.period := by
  induction k generalizing x with
  | zero => exact ⟨rfl, rfl, rfl, rfl⟩
  | succ k ih =>
    obtain ⟨hbeat, hdur, heng, hperiod⟩ := ih (countBeat x)
    exact ⟨hbeat.trans (Nat.succ_add_eq_add_succ x.sch.beat k), hdur, heng, hperiod⟩

/-- TICKs that stay below the duration count beats and add no record to the trace; what follows runs from there. -/
theorem ticks_below_duration {c : Channel} (is : List Instr) {k : Nat} {s : State}
    (h : (s.chan c).sch.beat + k < (s.chan c).sch.noteDur) :
    runEvents (List.replicate k (.tick c) ++ is) s = runEvents is (s.setChan c (countBeat^[k] (s.chan c))) ∧
      emissionTrace c (List.replicate k (.tick c) ++ is) s =
        emissionTrace c is (s.setChan c (countBeat^[k] (s.chan c))) := by
  induction k generalizing s with
  | zero => simp
  | succ k ih =>
    have hi : invokes (s.chan c) = false := (invokes_eq_false_iff _).mpr (by omega)
    have hexec := exec_tick_of_counts hi
    have hsilent : emitted c (.tick c) s (s.setChan c (countBeat (s.chan c))) = [] := by simp [emitted, hi]
    have hnext : (countBeat (s.chan c)).sch.beat + k < (countBeat (s.chan c)).sch.noteDur := by
      simp only [countBeat]
      omega
    obtain ⟨hrun, htrace⟩ := ih (s := s.setChan c (countBeat (s.chan c))) (by simpa using hnext)
    rw [setChan_chan, setChan_setChan] at hrun htrace
    rw [List.replicate_succ, List.cons_append, emissionTrace_cons hexec, hsilent, List.nil_append]
    exact ⟨by rw [runEvents, hexec, andThen_next, hrun]; rfl, htrace⟩

/-- Settles O25: `n - 1` TICKs count up to the last beat, and the one after them is the invocation. -/
theorem noteLastsExactlyItsDuration : Obligations.NoteLastsExactlyItsDuration := by
  intro c s h0 h1
  refine ⟨fun k hk => ?_, ?_⟩
  · obtain ⟨hrun, htrace⟩ := ticks_below_duration (c := c) (s := s) (k := k) [] (by omega)
    rw [List.append_nil] at hrun htrace
    obtain ⟨hbeat, hdur, heng, hperiod⟩ := iterate_countBeat k (s.chan c)
    refine ⟨_, hrun, ?_⟩
    rw [setChan_chan, hbeat, h0, Nat.zero_add]
    exact ⟨rfl, hdur, heng, hperiod, htrace⟩
  · obtain ⟨k, hk⟩ := Nat.exists_eq_add_of_le' h1
    obtain ⟨hrun, htrace⟩ := ticks_below_duration (c := c) (s := s) (k := k) [.tick c] (by omega)
    obtain ⟨hbeat, hdur, -⟩ := iterate_countBeat k (s.chan c)
    have hi : invokes ((s.setChan c (countBeat^[k] (s.chan c))).chan c) = true := by
      rw [invokes_iff, setChan_chan, hbeat, hdur]
      omega
    rw [hk, List.replicate_succ', hrun, htrace, emissionTrace_tick, if_pos hi]
    refine ⟨_, rfl, ?_, rfl⟩
    rw [tickWith_chan, tickChannel_of_invokes _ _ _ hi, invoke_beat]

/-! ### The bar of the sounding degree (R224) -/

/-- Whatever the bounds of ChannelControl, a Note is that of a held degree. -/
theorem held_of_engine_note {split : Fin 9} {m : Mask} {ctl : Control} {e : EngineState} {p : PitchClass} {a : Accidental}
    {o : Octave} {dur : Nat} {deg : Degree} (h : (engine split m ctl e).2.out = .note p a o dur deg) :
    held m deg = true := by
  by_cases hm : m = 0
  · subst hm
    rw [engine_zero] at h
    cases h
  cases hs : isSingle m ctl
  · rw [engine_regular_emission split e hm hs] at h
    obtain hout | hout := stopOutput_cases split ctl (isCompose m ctl) (invocationStop m ctl e).eng
      (invocationStop m ctl e).d (invocationStop m ctl e).i
    · cases hout.symm.trans h
    · obtain ⟨-, -, -, rfl⟩ := eq_of_sound_eq_note (hout.symm.trans h)
      exact invocationStop_held hm ctl e
  · have hS := ((isSingle_iff m ctl).mp hs).2
    exact (noteSoundsAHeldDegreeInItsOctaves split m ctl e p a o dur deg hS.ge h).1

theorem onehot_and_of_held {m : Mask} {d : Degree} (h : held m d = true) : onehot d &&& m = onehot d := by
  apply mask_ext
  intro i
  have hand : held (onehot d &&& m) i = (held (onehot d) i && held m i) := BitVec.getLsbD_and
  rw [hand, held_onehot]
  by_cases hi : i = d <;> simp [hi, h]

/-- Settles O26: a Rest darkens the bar, and a Note lights that of its degree, which is held. -/
theorem barGraphShowsAHeldDegree : Obligations.BarGraphShowsAHeldDegree := by
  intro c s h
  have hi := (invokes_iff _).mpr h
  refine ⟨_, _, exec_tick c s, by rw [tickWith_chan, tickChannel_port, if_pos hi], ?_⟩
  rw [tickWith_chan, tickChannel_of_invokes _ _ _ hi]
  cases hout : (engine (Config.split c) (effMask c s) (s.chan c).ctl (s.chan c).eng).2.out <;> rw [invoke_eq_emit _ hout]
  case note p a o dur deg =>
    have hheld := held_of_engine_note hout
    refine ⟨fun _ => onehot_and_of_held hheld, fun _ _ _ _ _ hnote => ?_⟩
    cases hnote
    exact ⟨hheld, held_onehot deg⟩
  case rest dur => exact ⟨fun _ => BitVec.zero_and, nofun⟩
  case none => exact ⟨fun hne => absurd rfl hne, nofun⟩

/-! ### What a TICK leaves (R226) -/

/-- A TICK does not read the input stream. -/
theorem tickWith_withInput (split : Fin 9) (table : PeriodTable) (c : Channel) (s : State) (input : List Pins) :
    tickWith split table c { s with input := input } = { tickWith split table c s with input := input } := by
  cases c <;> rfl

/-- Settles O27: the mask, ChannelControl and slots are among what `tickChannel` and the hook keep. -/
theorem tickLeavesControlAndOtherChannel : Obligations.TickLeavesControlAndOtherChannel := by
  intro c s
  refine ⟨_, exec_tick c s, ?_, ?_, tickWith_chan_other _ _ c s, ?_, ?_, ?_, tickWith_input _ _ c s, fun input => ?_⟩
  · rw [tickWith_chan, tickChannel_mask]
  · rw [tickWith_chan, tickChannel_ctl]
  · rw [tickWith_recorder, hook_seq]
  · rw [tickWith_recorder, hook_play]
  · rintro rfl
    rfl
  · rw [exec_tick, tickWith_withInput]

end Sys2Proof.Machine

/-! PROOFS. The statements of 44_sequence.md. -/

namespace Sys2Proof.Machine

open Sys2Proof

/-! ### Where no phrase completes (R244, R246) -/

/-- With `stepCount = 1` and at most two degrees held there is no composition: a bidirectional mode alternates. -/
theorem isCompose_false_of_few {m : Mask} {ctl : Control} (hS : ctl.stepCount = 1) (hm : popcount m ≤ 2) :
    isCompose m ctl = false := by
  cases hdir : bidirectional ctl.dir with
  | false => exact isCompose_false_of_unidirectional hdir
  | true => exact isCompose_false_of_alt ((isAlt_iff m ctl).mpr ⟨hdir, hS, hm⟩)

/-- Without phrase complete the sequence hook leaves the recorder, on either channel. -/
@[simp] theorem hook_no_phrase (c : Channel) (r : Recorder) : hook c false r = r := by simp [hook_eq]

/-- A TICK whose engine run would not signal phrase complete leaves the recorder, invoking the engine or not. -/
theorem tickWith_recorder_of_no_phrase {split : Fin 9} (table : PeriodTable) {c : Channel} {s : State}
    (h : (engine split (effMask c s) (s.chan c).ctl (s.chan c).eng).2.phrase = false) :
    (tickWith split table c s).recorder = s.recorder := by
  rw [tickWith_recorder, tickPhrase_tickChannel, h, Bool.and_false, hook_no_phrase]

/-- Settles O23: each of the three cases rules out composition or has an all-zero mask, so no phrase completes. -/
theorem playbackStaysWithoutAPhrase : Obligations.PlaybackStaysWithoutAPhrase := by
  intro s h
  have hplain : effMask .two s = 0 ∨ isCompose (effMask .two s) s.ch2.ctl = false := by
    obtain hdir | hzero | ⟨hS, hfew⟩ := h
    · exact .inr (isCompose_false_of_unidirectional hdir)
    · exact .inl hzero
    · exact .inr (isCompose_false_of_few hS hfew)
  exact ⟨_, exec_tick .two s, tickWith_recorder_of_no_phrase _ (engine_phrase_of_plain _ _ hplain)⟩

/-! ### The three events of the recorder (R240 to R242) -/

/-- Settles O19: the slots are written at `k` alone, by the library's law of a write to a vector. -/
theorem seqRecordCopiesTheLiveMask : Obligations.SeqRecordCopiesTheLiveMask := by
  intro k s
  refine ⟨_, rfl, fun j => ?_, rfl⟩
  change (s.recorder.seq.set k s.ch2.mask)[j.val] = _
  rw [Vector.getElem_set]
  simp only [Fin.ext_iff, eq_comm (a := k.val), Fin.getElem_fin]

/-- Settles O20: SEQPLAY is a write of these two fields, whatever `play` was. -/
theorem seqPlayStartsAtSlotZero : Obligations.SeqPlayStartsAtSlotZero := fun _ => rfl

/-- Settles O21: SEQSTOP writes channel 2 by `forceRest` and the recorder, and nothing else. -/
theorem seqStopForcesARest : Obligations.SeqStopForcesARest := fun _ => ⟨_, rfl, rfl, rfl, rfl, rfl⟩

/-! ### The effective mask (R243) -/

theorem effMask_two_of_playing {s : State} (h : s.recorder.play = true) :
    effMask .two s = s.recorder.seq[s.recorder.seqCursor] := if_pos h

theorem effMask_two_of_stopped {s : State} (h : s.recorder.play = false) : effMask .two s = s.ch2.mask :=
  if_neg (by simp [h])

/-- Settles O22: channel 1 has no recorder, and on channel 2 `play` decides. -/
theorem playbackSubstitutesTheSlot : Obligations.PlaybackSubstitutesTheSlot :=
  fun _ => ⟨rfl, effMask_two_of_playing, effMask_two_of_stopped⟩

end Sys2Proof.Machine

/-! PROOFS. The statements of 60_exceptions.md. -/

namespace Sys2Proof.Machine

open Sys2Proof

/-! ### Runs of events (R78, R260) -/

@[simp] theorem andThen_next_right (o : Host.Outcome State Fault Refusal) : andThen o .next = o := by cases o <;> rfl

theorem andThen_assoc (o : Host.Outcome State Fault Refusal) (f g : State → Host.Outcome State Fault Refusal) :
    andThen (andThen o f) g = andThen o fun s => andThen (f s) g := by cases o <;> rfl

@[simp] theorem runEvents_singleton (i : Instr) (s : State) : runEvents [i] s = exec i s := andThen_next_right _

/-- A run of two lists is the run of the second behind the run of the first. -/
theorem runEvents_append (is js : List Instr) (s : State) :
    runEvents (is ++ js) s = andThen (runEvents is s) (runEvents js) := by
  induction is generalizing s with
  | nil => rfl
  | cons i is ih => simp only [List.cons_append, runEvents, andThen_assoc, funext ih]

/-- No event stops, so no run of events does. -/
theorem exists_runEvents_eq_next (is : List Instr) (s : State) : ∃ t, runEvents is s = .next t := by
  induction is generalizing s with
  | nil => exact ⟨s, rfl⟩
  | cons i is ih =>
    obtain ⟨u, hu, -⟩ := exec_moves i s
    obtain ⟨t, ht⟩ := ih u
    exact ⟨t, andThen_eq_next.mpr ⟨u, hu, ht⟩⟩

/-! ### A cycle as a run of its events (R263) -/

theorem execPulse_eq_runEvents (pulse : Bool) (c : Channel) :
    execPulse pulse c = runEvents (if pulse then [.tick c] else []) := by
  funext s
  cases pulse with
  | false => rfl
  | true => exact (runEvents_singleton (.tick c) s).symm

/-- A word runs as its event, a reserved word as NOP (30_encoding.md R112). -/
theorem execWord_eq_exec (w : EventWord) (s : State) : execWord w s = exec ((decode w).toOption.getD .nop) s := by
  cases hd : decode w with
  | ok i => exact execWord_of_ok hd s
  | error r => exact execWord_of_error hd s

/-- The command port runs the events of the cycle that presents the command alone. -/
theorem execCommand_eq_runEvents (cmd : Option EventWord) :
    execCommand cmd = runEvents (cycleEvents ⟨false, false, false, cmd⟩) := by
  funext s
  cases cmd with
  | none => rfl
  | some w => exact (execWord_eq_exec w s).trans (runEvents_singleton _ s).symm

theorem cycleEvents_eq_append (p : Pins) :
    cycleEvents p = (if p.tick0 then [.tick .one] else []) ++ (if p.tick1 then [.tick .two] else []) ++
      cycleEvents ⟨false, false, false, p.cmd⟩ := rfl

theorem runCycle_eq_runEvents {p : Pins} (h : p.rst = false) (s : State) :
    runCycle p s = runEvents (cycleEvents p) s.clearPorts := by
  rw [cycleEvents_eq_append, runEvents_append, runEvents_append, ← execPulse_eq_runEvents, ← execPulse_eq_runEvents,
    ← execCommand_eq_runEvents]
  simp [runCycle, h]

theorem step_of_input_cons {s : State} {p : Pins} {rest : List Pins} (h : s.input = p :: rest) :
    step s = runCycle p { s with input := rest } := by simp only [step, nextCycle, h]

/-- Settles O8: the cycle comes off the stream, and without reset it is the run of its events. -/
theorem cycleRunsItsEventsInOrder : Obligations.CycleRunsItsEventsInOrder := fun _ _ _ _ _ h =>
  (step_of_input_cons h).trans (runCycle_eq_runEvents rfl _)

/-- Reset stops at nothing, and neither does a run of events. -/
theorem exists_runCycle_eq_next (p : Pins) (s : State) : ∃ t, runCycle p s = .next t := by
  cases h : p.rst with
  | true => exact ⟨resetCycle s, if_pos h⟩
  | false => exact runCycle_eq_runEvents h s ▸ exists_runEvents_eq_next _ _

/-- Settles O10: the events by the account of what each does, the cycles as reset or runs of events. -/
theorem nothingStops : Obligations.NothingStops := by
  refine ⟨fun i s => ?_, fun s => exists_runCycle_eq_next _ _⟩
  obtain ⟨t, ht, -⟩ := exec_moves i s
  exact ⟨t, ht⟩

end Sys2Proof.Machine

/-! PROOFS. The statements of 70_reset_and_hazards.md. -/

namespace Sys2Proof.Machine

open Sys2Proof

/-! ### Reset (R290) -/

/-- Settles O2: the cycle comes off the stream, and `rst = 1` is asked before anything else it presents. -/
theorem resetCycleDiscardsTicksAndCommand : Obligations.ResetCycleDiscardsTicksAndCommand := fun _ _ _ _ _ h =>
  (step_of_input_cons h).trans (if_pos rfl)

/-! ### The record port over a cycle (R48, R303) -/

/-- Only a TICK of its own channel writes a record port. -/
theorem exec_keeps_port {i : Instr} {s t : State} {k : Channel} (h : exec i s = .next t) (hi : i ≠ .tick k) :
    (t.chan k).port = (s.chan k).port := by
  cases exec_move h k with
  | tick htick _ => exact absurd htick hi
  | stop _ ht => simp only [ht, forceRest]
  | command hc =>
    obtain ⟨_, _, ht, -⟩ := hc
    simp only [ht]

/-- After an event the port shows the record the event adds to the trace, or what it showed before. -/
theorem exec_port {i : Instr} {s t : State} (h : exec i s = .next t) (k : Channel) :
    (t.chan k).port = (emitted k i s t).getLast?.or (s.chan k).port := by
  by_cases hi : i = .tick k
  · subst hi
    cases h
    cases hv : invokes (s.chan k) <;> simp [emitted, tickChannel_port, hv]
  · simp [emitted, hi, exec_keeps_port h hi]

/-- After a run of events the port shows the last record of the run's trace, or what it showed before. -/
theorem runEvents_port {is : List Instr} {s t : State} (h : runEvents is s = .next t) (k : Channel) :
    (t.chan k).port = (emissionTrace k is s).getLast?.or (s.chan k).port := by
  induction is generalizing s with
  | nil =>
    cases h
    rfl
  | cons i is ih =>
    obtain ⟨u, hu, ht⟩ := andThen_eq_next.mp h
    rw [emissionTrace_cons hu, List.getLast?_append, Option.or_assoc, ← exec_port hu k, ih ht]

/-- Settles O57: the cycle is a run of its events from cleared ports, so what the port showed before is no record. -/
theorem recordPortShowsTheLastInvocationOfTheCycle : Obligations.RecordPortShowsTheLastInvocationOfTheCycle := by
  intro s tick0 tick1 cmd rest hin
  obtain ⟨t, ht⟩ := exists_runEvents_eq_next (cycleEvents ⟨false, tick0, tick1, cmd⟩) { s with input := rest }.clearPorts
  refine ⟨t, (cycleRunsItsEventsInOrder s tick0 tick1 cmd rest hin).trans ht, fun c => ?_⟩
  rw [outputs, runEvents_port ht c, clearPorts_chan, Option.or_none]

end Sys2Proof.Machine

/-! PROOFS. The sample words of 95_test_vectors.md V14, and a cycle past the end of the input stream. -/

namespace Sys2Proof.Machine

open Sys2Proof

/-! ### Sample words (V14) -/

/-- Settles O5: the decoder is evaluated on the twelve words. -/
theorem sampleWordsDecodeAsTheSpecSays : Obligations.SampleWordsDecodeAsTheSpecSays := by
  unfold Obligations.SampleWordsDecodeAsTheSpecSays
  decide

/-! ### Past the end of the input stream (log entry 1) -/

theorem step_of_input_nil {s : State} (h : s.input = []) : step s = runCycle idleCycle s := by
  simp only [step, nextCycle, h]

/-- Settles O9: past the end the cycle is idle, so it runs no event from cleared ports. -/
theorem emptyStreamIdles : Obligations.EmptyStreamIdles := fun s h =>
  calc step s
    _ = runCycle idleCycle s := step_of_input_nil h
    _ = runEvents (cycleEvents idleCycle) s.clearPorts := runCycle_eq_runEvents rfl s
    _ = .next s.clearPorts := rfl

end Sys2Proof.Machine
